-- ==== Sys2Proof/Word.lean ====
section
/-! DEFINITION. Bytes, instruction words, and the words of the two variants of the Viking CPU (`00_scope.md` R2, R4;
`20_memory.md` R26). -/

namespace Sys2Proof

/-- "Um byte possui 8 bits" (`20_memory.md` R26). -/
abbrev Byte := BitVec 8

/-- Every instruction is one 16-bit word, in both variants (`00_scope.md` R4, `30_encoding.md` R45). -/
abbrev InstrWord := BitVec 16

/-- The two variants of the processor: they differ only in the width `W` of a register (`00_scope.md` R2). -/
inductive Variant where
  | w16
  | w32
deriving DecidableEq, Repr

/-- `W`: the width in bits of a register, a word, an address and the program counter (`00_scope.md` R2, `10_state.md` R17). -/
@[reducible] def Variant.width : Variant → Nat
  | .w16 => 16
  | .w32 => 32

/-- `WB = W / 8`: the bytes of a word (`00_scope.md` R2). -/
@[reducible] def Variant.wordBytes : Variant → Nat
  | .w16 => 2
  | .w32 => 4

/-- A word of the variant `v`: `W` bits (`20_memory.md` R26). -/
abbrev Word (v : Variant) := BitVec v.width

end Sys2Proof
end

