-- ==== Sys2Proof/Config.lean ====
section
/-! DEFINITION. What an implementation fixes: the launch parameters and policies of `00_scope.md` §4, the address map of
the reference simulator (`20_memory.md` §5), and the free values of the input devices. -/

namespace Sys2Proof

/-- What a non-zero value in a field that the format fixes to 000 does (`FIXED_FIELD_POLICY`, `30_encoding.md` R52). -/
inductive FixedFieldPolicy where
  /-- The word is a reserved encoding (the spec's default). -/
  | fault
  /-- The field is not decoded: the word executes with the field treated as 000. -/
  | ignore
deriving DecidableEq, Repr

/-- What the word `0x0003` does (`HCF_POLICY`, `30_encoding.md` R54, `44_hcf.md` R111). -/
inductive HcfPolicy where
  /-- It ends the run, as in the reference simulator (the spec's default). -/
  | halt
  /-- It is a reserved encoding, as on bare hardware. -/
  | reserved
deriving DecidableEq, Repr

/-- The three policy parameters of `00_scope.md` §4. -/
structure Policy where
  /-- `BRANCH_OP2_ALIAS`: format-R branches are also accepted with `Op2` = 00 (`30_encoding.md` R55). -/
  branchOp2Alias : Bool
  fixedField : FixedFieldPolicy
  hcf : HcfPolicy
deriving DecidableEq, Repr

/-- The values `00_scope.md` §4 gives the policies. -/
def Policy.standard : Policy := ⟨false, .fault, .halt⟩

/-- The parameters of a run: constant from the first step to the last (`00_scope.md` §4, `60_exceptions.md` R179). -/
structure Params where
  variant : Variant
  policy : Policy
deriving DecidableEq, Repr

/-- DESIGN CHOICE (log 1, log 2): the 16-bit variant, the one of all the manual's listings (D1), with the spec's default policies. -/
def Params.standard : Params := ⟨.w16, .standard⟩

/-! The address map of the reference simulator (`20_memory.md` §5, `00_scope.md` §4). -/

/-- `RAM_SIZE`: RAM occupies the addresses 0 to `RAM_SIZE - 1` (`20_memory.md` R36; for `W = 32`, D20). -/
@[reducible] def Variant.ramSize : Variant → Nat
  | .w16 => 0xE000
  | .w32 => 0x100000

/-- `OUT_CHAR` (`20_memory.md` R37, `60_exceptions.md` R170). -/
@[reducible] def Variant.outCharAddr : Variant → Nat
  | .w16 => 0xF000
  | .w32 => 0xF0000000

/-- `OUT_INT` (`20_memory.md` R37, `60_exceptions.md` R170). -/
@[reducible] def Variant.outIntAddr : Variant → Nat
  | .w16 => 0xF002
  | .w32 => 0xF0000004

/-- `IN_CHAR` (`20_memory.md` R37, `60_exceptions.md` R170). -/
@[reducible] def Variant.inCharAddr : Variant → Nat
  | .w16 => 0xF004
  | .w32 => 0xF0000008

/-- `IN_INT` (`20_memory.md` R37, `60_exceptions.md` R170). -/
@[reducible] def Variant.inIntAddr : Variant → Nat
  | .w16 => 0xF006
  | .w32 => 0xF000000C

/-- `STACK_TOP`: the address of the last word of RAM, the value of `r7` at the start (`10_state.md` R23). -/
def Variant.stackTop : (v : Variant) → Word v
  | .w16 => 0xDFFE#16
  | .w32 => 0x000FFFFC#32

/-- `RESET_PC` (`10_state.md` R20). -/
def Variant.resetPc (v : Variant) : Word v := 0#v.width

/-- What a byte of RAM that memory does not list reads as. DESIGN CHOICE (log 4): the spec gives the content of RAM
outside the image no value (`INIT_MEM`, `20_memory.md` R39); every content is some list, this is the content of none. -/
def Config.unlistedByte : Byte := 0x00#8

/-- The `n`-th item the oracle of `IN_CHAR` gives: a free character code, 0 to 255 (`60_exceptions.md` R173,
`92_eei_decisions.md` D19; log 5). No body. -/
opaque Config.charInput : Nat → Byte

/-- The `n`-th item the oracle of `IN_INT` gives: a free integer, read modulo `2^W` (`60_exceptions.md` R174, D19; log 5). No body. -/
opaque Config.intInput : Nat → Int

end Sys2Proof
end

