-- ==== Sys2Proof/Syntax.lean ====
section
/-! DEFINITION. The instructions: one constructor for each row of `spec/opcode_table.json` (`30_encoding.md` R50, R54). -/

namespace Sys2Proof

/-- A general-purpose register index, three bits in every format (`10_state.md` R10). -/
abbrev Reg := Fin 8

/-! The registers with an alias (`10_state.md` R12): the roles are software convention, no meaning depends on them. -/

/-- `at`, the assembler's temporary. -/
def Reg.temporary : Reg := 0
/-- `sr`, the scratch register and function result. -/
def Reg.scratch : Reg := 5
/-- `lr`, the return address. -/
def Reg.link : Reg := 6
/-- `sp`, the stack pointer. -/
def Reg.stackPointer : Reg := 7

/-- The instruction set. The suffix `R` names format R (three registers), `I` format I (a register and an 8-bit
immediate), where an operation has both (`30_encoding.md` R46, R47). A register field that the format fixes to 000
(R52) is no operand. -/
inductive Instr where
  /-- `and Rst,RsA,RsB` (`40_computation.md` R61). -/
  | andR (rst rsa rsb : Reg)
  /-- `and Rst,Immediate` (R62). -/
  | andI (rst : Reg) (imm : Byte)
  /-- `or Rst,RsA,RsB` (R63). -/
  | orR (rst rsa rsb : Reg)
  /-- `or Rst,Immediate` (R64). -/
  | orI (rst : Reg) (imm : Byte)
  /-- `xor Rst,RsA,RsB` (R65). -/
  | xorR (rst rsa rsb : Reg)
  /-- `xor Rst,Immediate` (R66). -/
  | xorI (rst : Reg) (imm : Byte)
  /-- `slt Rst,RsA,RsB` (R67). -/
  | sltR (rst rsa rsb : Reg)
  /-- `slt Rst,Immediate` (R68). -/
  | sltI (rst : Reg) (imm : Byte)
  /-- `sltu Rst,RsA,RsB` (R69). -/
  | sltuR (rst rsa rsb : Reg)
  /-- `sltu Rst,Immediate` (R70). -/
  | sltuI (rst : Reg) (imm : Byte)
  /-- `add Rst,RsA,RsB` (R71). -/
  | addR (rst rsa rsb : Reg)
  /-- `add Rst,Immediate` (R72). -/
  | addI (rst : Reg) (imm : Byte)
  /-- `sub Rst,RsA,RsB` (R73). -/
  | subR (rst rsa rsb : Reg)
  /-- `sub Rst,Immediate` (R74). -/
  | subI (rst : Reg) (imm : Byte)
  /-- `ldr Rst,Immediate` (R75). -/
  | ldr (rst : Reg) (imm : Byte)
  /-- `ldc Rst,Immediate` (R76). -/
  | ldc (rst : Reg) (imm : Byte)
  /-- `lsr Rst,RsA,r0` (`41_shift.md` R81). -/
  | lsr (rst rsa : Reg)
  /-- `asr Rst,RsA,r0` (R82). -/
  | asr (rst rsa : Reg)
  /-- `ldb Rst,r0,RsB` (`42_load_store.md` R86). -/
  | ldb (rst rsb : Reg)
  /-- `stb r0,RsA,RsB` (R87). -/
  | stb (rsa rsb : Reg)
  /-- `ldw Rst,r0,RsB` (R88). -/
  | ldw (rst rsb : Reg)
  /-- `stw r0,RsA,RsB` (R89). -/
  | stw (rsa rsb : Reg)
  /-- `bez r0,RsA,RsB` (`43_branch.md` R96). -/
  | bezR (rsa rsb : Reg)
  /-- `bez Rst,Immediate` (R97). -/
  | bezI (rst : Reg) (imm : Byte)
  /-- `bnz r0,RsA,RsB` (R100). -/
  | bnzR (rsa rsb : Reg)
  /-- `bnz Rst,Immediate` (R101). -/
  | bnzI (rst : Reg) (imm : Byte)
  /-- `hcf`, the word `0x0003` (`44_hcf.md` R110, R111). -/
  | hcf
deriving DecidableEq, Repr

end Sys2Proof
end

