-- ==== Sys2Proof/WellFormed.lean ====
section
/-! DEFINITION. Which instructions exist on a machine with given policies. The operand types (`Reg`, `Byte`) already hold
every value of an operand field and nothing else, so the one check left is HCF's (`30_encoding.md` R54). -/

namespace Sys2Proof

/-- An instruction is well formed for a policy when the machine with that policy has it: HCF is an instruction only with
`HCF_POLICY = halt` (`30_encoding.md` R54, `44_hcf.md` R111); the 26 forms of R50 always are. -/
def Instr.wellFormed (p : Policy) : Instr → Bool
  | .andR _ _ _ => true
  | .andI _ _ => true
  | .orR _ _ _ => true
  | .orI _ _ => true
  | .xorR _ _ _ => true
  | .xorI _ _ => true
  | .sltR _ _ _ => true
  | .sltI _ _ => true
  | .sltuR _ _ _ => true
  | .sltuI _ _ => true
  | .addR _ _ _ => true
  | .addI _ _ => true
  | .subR _ _ _ => true
  | .subI _ _ => true
  | .ldr _ _ => true
  | .ldc _ _ => true
  | .lsr _ _ => true
  | .asr _ _ => true
  | .ldb _ _ => true
  | .stb _ _ => true
  | .ldw _ _ => true
  | .stw _ _ => true
  | .bezR _ _ => true
  | .bezI _ _ => true
  | .bnzR _ _ => true
  | .bnzI _ _ => true
  | .hcf => decide (p.hcf = .halt)

end Sys2Proof
end

