-- ==== Sys2Proof/Decode.lean ====
section
/-! DEFINITION. The decoder (`30_encoding.md` R51 to R55), total on every word and every list of bytes, the encoder (R46,
R47, R50), and the opcode map as a table of matches and masks (R50). -/

namespace Sys2Proof

/-! The fields of an instruction word (`30_encoding.md` R46, R47). -/

/-- `Opcode`, `I[15:12]`. -/
def opcodeField (w : InstrWord) : BitVec 4 := w.extractLsb' 12 4
/-- `Imm`, `I[11]`: 0 selects format R, 1 format I (R45). -/
def immField (w : InstrWord) : BitVec 1 := w.extractLsb' 11 1
/-- `Rst`, `I[10:8]`. -/
def rstField (w : InstrWord) : Reg := (w.extractLsb' 8 3).toFin
/-- `RsA`, `I[7:5]`, format R. -/
def rsaField (w : InstrWord) : Reg := (w.extractLsb' 5 3).toFin
/-- `RsB`, `I[4:2]`, format R. -/
def rsbField (w : InstrWord) : Reg := (w.extractLsb' 2 3).toFin
/-- `Op2`, `I[1:0]`, format R. -/
def op2Field (w : InstrWord) : BitVec 2 := w.extractLsb' 0 2
/-- `Immediate`, `I[7:0]`, format I: the eight bits as they are (R48). -/
def immediateField (w : InstrWord) : Byte := w.extractLsb' 0 8

/-- Why bytes are no instruction. Every reason but the first is a reserved encoding (`30_encoding.md` R53). -/
inductive DecodeError where
  /-- Fewer than the two bytes of an instruction. -/
  | truncated
  /-- Format I with `Opcode` 0111 or 1100 to 1111. -/
  | reservedImmediateOpcode
  /-- Format R with `Opcode` 0111, 1000, 1001 or 1100 to 1111. -/
  | reservedRegisterOpcode
  /-- Format R with a pair of `Opcode` and `Op2` that no row has. -/
  | reservedOp2
  /-- Format R, `Op2` = 00, `Opcode` 1010 or 1011, without `BRANCH_OP2_ALIAS` (R55). -/
  | branchOp2Zero
  /-- A field that the format fixes to 000 holds another value, with `FIXED_FIELD_POLICY = fault` (R52). -/
  | fixedFieldNonZero
deriving DecidableEq, Repr

/-- The instruction `i` of a word whose field `fixed` the format fixes to 000 (`30_encoding.md` R52). -/
def requireFixed (p : Policy) (fixed : Reg) (i : Instr) : Except DecodeError Instr :=
  if fixed = 0 ∨ p.fixedField = .ignore then .ok i else .error .fixedFieldNonZero

/-- A format-R branch spelled with `Op2` = 00 (`30_encoding.md` R55). The fixed field follows R52 there too (log 7). -/
def branchAlias (p : Policy) (fixed : Reg) (i : Instr) : Except DecodeError Instr :=
  if p.branchOp2Alias then requireFixed p fixed i else .error .branchOp2Zero

/-- Format I (`30_encoding.md` R51, the branch `imm = 1`). -/
def decodeImmediate (opcode : BitVec 4) (rst : Reg) (k : Byte) : Except DecodeError Instr :=
  match opcode.toNat with
  | 0b0000 => .ok (.andI rst k)
  | 0b0001 => .ok (.orI rst k)
  | 0b0010 => .ok (.xorI rst k)
  | 0b0011 => .ok (.sltI rst k)
  | 0b0100 => .ok (.sltuI rst k)
  | 0b0101 => .ok (.addI rst k)
  | 0b0110 => .ok (.subI rst k)
  | 0b1000 => .ok (.ldr rst k)
  | 0b1001 => .ok (.ldc rst k)
  | 0b1010 => .ok (.bezI rst k)
  | 0b1011 => .ok (.bnzI rst k)
  | _ => .error .reservedImmediateOpcode

/-- Format R but for HCF (`30_encoding.md` R51, the branch `imm = 0`). -/
def decodeRegister (p : Policy) (opcode : BitVec 4) (rst rsa rsb : Reg) (op2 : BitVec 2) : Except DecodeError Instr :=
  match opcode.toNat, op2.toNat with
  | 0b0000, 0b00 => .ok (.andR rst rsa rsb)
  | 0b0001, 0b00 => .ok (.orR rst rsa rsb)
  | 0b0010, 0b00 => .ok (.xorR rst rsa rsb)
  | 0b0011, 0b00 => .ok (.sltR rst rsa rsb)
  | 0b0100, 0b00 => .ok (.sltuR rst rsa rsb)
  | 0b0101, 0b00 => .ok (.addR rst rsa rsb)
  | 0b0110, 0b00 => .ok (.subR rst rsa rsb)
  | 0b0000, 0b01 => requireFixed p rsb (.lsr rst rsa)
  | 0b0001, 0b01 => requireFixed p rsb (.asr rst rsa)
  | 0b0000, 0b10 => requireFixed p rsa (.ldb rst rsb)
  | 0b0100, 0b10 => requireFixed p rsa (.ldw rst rsb)
  | 0b0001, 0b10 => requireFixed p rst (.stb rsa rsb)
  | 0b0101, 0b10 => requireFixed p rst (.stw rsa rsb)
  | 0b1010, 0b11 => requireFixed p rst (.bezR rsa rsb)
  | 0b1011, 0b11 => requireFixed p rst (.bnzR rsa rsb)
  | 0b1010, 0b00 => branchAlias p rst (.bezR rsa rsb)
  | 0b1011, 0b00 => branchAlias p rst (.bnzR rsa rsb)
  | 0b0111, _ | 0b1000, _ | 0b1001, _ | 0b1100, _ | 0b1101, _ | 0b1110, _ | 0b1111, _ => .error .reservedRegisterOpcode
  | _, _ => .error .reservedOp2

/-- The word of HCF (`30_encoding.md` R54, `44_hcf.md` R110). -/
def hcfWord : InstrWord := 0x0003#16

/-- The decoder (`30_encoding.md` R51): every word is one instruction or is rejected by name. -/
def decode (p : Policy) (w : InstrWord) : Except DecodeError Instr :=
  if immField w = 1#1 then
    decodeImmediate (opcodeField w) (rstField w) (immediateField w)
  else if w = hcfWord ∧ p.hcf = .halt then
    .ok .hcf
  else
    decodeRegister p (opcodeField w) (rstField w) (rsaField w) (rsbField w) (op2Field w)

/-- The instruction word of its two bytes in memory: the byte at the lower address is `I[15:8]` (`20_memory.md` R27). -/
def wordOfBytes (first second : Byte) : InstrWord := first ++ second

/-- The two bytes of an instruction word, in the order of their addresses (`20_memory.md` R27). -/
def bytesOfWord (w : InstrWord) : List Byte := [w.extractLsb' 8 8, w.extractLsb' 0 8]

/-- The decoder on bytes: the first instruction and the bytes after it. -/
def decodeBytes (p : Policy) : List Byte → Except DecodeError (Instr × List Byte)
  | first :: second :: rest =>
    match decode p (wordOfBytes first second) with
    | .ok i => .ok (i, rest)
    | .error e => .error e
  | _ => .error .truncated

/-! The encoder. -/

/-- A word of format R: `Opcode`, `Imm` = 0, `Rst`, `RsA`, `RsB`, `Op2` (`30_encoding.md` R46). -/
def formatR (opcode : BitVec 4) (rst rsa rsb : Reg) (op2 : BitVec 2) : InstrWord :=
  opcode ++ 0#1 ++ (BitVec.ofFin rst : BitVec 3) ++ (BitVec.ofFin rsa : BitVec 3) ++ (BitVec.ofFin rsb : BitVec 3) ++ op2

/-- A word of format I: `Opcode`, `Imm` = 1, `Rst`, `Immediate` (`30_encoding.md` R47). -/
def formatI (opcode : BitVec 4) (rst : Reg) (imm : Byte) : InstrWord :=
  opcode ++ 1#1 ++ (BitVec.ofFin rst : BitVec 3) ++ imm

/-- The canonical word of an instruction (`30_encoding.md` R50, R54): fixed fields 000, format-R branches with `Op2` = 11. -/
def encode : Instr → InstrWord
  | .andR rst rsa rsb => formatR 0b0000#4 rst rsa rsb 0b00#2
  | .andI rst k => formatI 0b0000#4 rst k
  | .orR rst rsa rsb => formatR 0b0001#4 rst rsa rsb 0b00#2
  | .orI rst k => formatI 0b0001#4 rst k
  | .xorR rst rsa rsb => formatR 0b0010#4 rst rsa rsb 0b00#2
  | .xorI rst k => formatI 0b0010#4 rst k
  | .sltR rst rsa rsb => formatR 0b0011#4 rst rsa rsb 0b00#2
  | .sltI rst k => formatI 0b0011#4 rst k
  | .sltuR rst rsa rsb => formatR 0b0100#4 rst rsa rsb 0b00#2
  | .sltuI rst k => formatI 0b0100#4 rst k
  | .addR rst rsa rsb => formatR 0b0101#4 rst rsa rsb 0b00#2
  | .addI rst k => formatI 0b0101#4 rst k
  | .subR rst rsa rsb => formatR 0b0110#4 rst rsa rsb 0b00#2
  | .subI rst k => formatI 0b0110#4 rst k
  | .ldr rst k => formatI 0b1000#4 rst k
  | .ldc rst k => formatI 0b1001#4 rst k
  | .lsr rst rsa => formatR 0b0000#4 rst rsa 0 0b01#2
  | .asr rst rsa => formatR 0b0001#4 rst rsa 0 0b01#2
  | .ldb rst rsb => formatR 0b0000#4 rst 0 rsb 0b10#2
  | .stb rsa rsb => formatR 0b0001#4 0 rsa rsb 0b10#2
  | .ldw rst rsb => formatR 0b0100#4 rst 0 rsb 0b10#2
  | .stw rsa rsb => formatR 0b0101#4 0 rsa rsb 0b10#2
  | .bezR rsa rsb => formatR 0b1010#4 0 rsa rsb 0b11#2
  | .bezI rst k => formatI 0b1010#4 rst k
  | .bnzR rsa rsb => formatR 0b1011#4 0 rsa rsb 0b11#2
  | .bnzI rst k => formatI 0b1011#4 rst k
  | .hcf => hcfWord

/-! The opcode map as the table of `30_encoding.md` R50 prints it. -/

/-- A row of the table: a word `I` is of the row exactly when `(I and mask) = pattern` (R50). -/
structure OpcodeRow where
  mnemonic : String
  pattern : InstrWord
  mask : InstrWord
deriving DecidableEq, Repr

/-- The row's test of R50. -/
def OpcodeRow.admits (r : OpcodeRow) (w : InstrWord) : Bool := (w &&& r.mask) = r.pattern

/-- The row of R50 (and the row of HCF, R54) that an instruction is of. -/
def Instr.row : Instr → OpcodeRow
  | .andR _ _ _ => ⟨"and", 0x0000#16, 0xF803#16⟩
  | .andI _ _ => ⟨"and", 0x0800#16, 0xF800#16⟩
  | .orR _ _ _ => ⟨"or", 0x1000#16, 0xF803#16⟩
  | .orI _ _ => ⟨"or", 0x1800#16, 0xF800#16⟩
  | .xorR _ _ _ => ⟨"xor", 0x2000#16, 0xF803#16⟩
  | .xorI _ _ => ⟨"xor", 0x2800#16, 0xF800#16⟩
  | .sltR _ _ _ => ⟨"slt", 0x3000#16, 0xF803#16⟩
  | .sltI _ _ => ⟨"slt", 0x3800#16, 0xF800#16⟩
  | .sltuR _ _ _ => ⟨"sltu", 0x4000#16, 0xF803#16⟩
  | .sltuI _ _ => ⟨"sltu", 0x4800#16, 0xF800#16⟩
  | .addR _ _ _ => ⟨"add", 0x5000#16, 0xF803#16⟩
  | .addI _ _ => ⟨"add", 0x5800#16, 0xF800#16⟩
  | .subR _ _ _ => ⟨"sub", 0x6000#16, 0xF803#16⟩
  | .subI _ _ => ⟨"sub", 0x6800#16, 0xF800#16⟩
  | .ldr _ _ => ⟨"ldr", 0x8800#16, 0xF800#16⟩
  | .ldc _ _ => ⟨"ldc", 0x9800#16, 0xF800#16⟩
  | .lsr _ _ => ⟨"lsr", 0x0001#16, 0xF81F#16⟩
  | .asr _ _ => ⟨"asr", 0x1001#16, 0xF81F#16⟩
  | .ldb _ _ => ⟨"ldb", 0x0002#16, 0xF8E3#16⟩
  | .stb _ _ => ⟨"stb", 0x1002#16, 0xFF03#16⟩
  | .ldw _ _ => ⟨"ldw", 0x4002#16, 0xF8E3#16⟩
  | .stw _ _ => ⟨"stw", 0x5002#16, 0xFF03#16⟩
  | .bezR _ _ => ⟨"bez", 0xA003#16, 0xFF03#16⟩
  | .bezI _ _ => ⟨"bez", 0xA800#16, 0xF800#16⟩
  | .bnzR _ _ => ⟨"bnz", 0xB003#16, 0xFF03#16⟩
  | .bnzI _ _ => ⟨"bnz", 0xB800#16, 0xF800#16⟩
  | .hcf => ⟨"hcf", 0x0003#16, 0xFFFF#16⟩

/-- The 26 rows of `30_encoding.md` R50, in its order. -/
def opcodeTable : List OpcodeRow :=
  [ ⟨"and", 0x0000#16, 0xF803#16⟩, ⟨"and", 0x0800#16, 0xF800#16⟩,
    ⟨"or", 0x1000#16, 0xF803#16⟩, ⟨"or", 0x1800#16, 0xF800#16⟩,
    ⟨"xor", 0x2000#16, 0xF803#16⟩, ⟨"xor", 0x2800#16, 0xF800#16⟩,
    ⟨"slt", 0x3000#16, 0xF803#16⟩, ⟨"slt", 0x3800#16, 0xF800#16⟩,
    ⟨"sltu", 0x4000#16, 0xF803#16⟩, ⟨"sltu", 0x4800#16, 0xF800#16⟩,
    ⟨"add", 0x5000#16, 0xF803#16⟩, ⟨"add", 0x5800#16, 0xF800#16⟩,
    ⟨"sub", 0x6000#16, 0xF803#16⟩, ⟨"sub", 0x6800#16, 0xF800#16⟩,
    ⟨"ldr", 0x8800#16, 0xF800#16⟩, ⟨"ldc", 0x9800#16, 0xF800#16⟩,
    ⟨"lsr", 0x0001#16, 0xF81F#16⟩, ⟨"asr", 0x1001#16, 0xF81F#16⟩,
    ⟨"ldb", 0x0002#16, 0xF8E3#16⟩, ⟨"stb", 0x1002#16, 0xFF03#16⟩,
    ⟨"ldw", 0x4002#16, 0xF8E3#16⟩, ⟨"stw", 0x5002#16, 0xFF03#16⟩,
    ⟨"bez", 0xA003#16, 0xFF03#16⟩, ⟨"bez", 0xA800#16, 0xF800#16⟩,
    ⟨"bnz", 0xB003#16, 0xFF03#16⟩, ⟨"bnz", 0xB800#16, 0xF800#16⟩ ]

/-- What the decoder reads from a row's word, numbered as `spec/opcode_table.json` numbers it: the word's low 16 bits,
laid out in memory order and given to the decoder with the spec's default policies. -/
def decodeTableWord (_nbits w : Nat) : Option Instr :=
  match decodeBytes .standard (bytesOfWord (BitVec.ofNat 16 w)) with
  | .ok (i, _) => some i
  | .error _ => none

end Sys2Proof
end

