-- ==== Sys2Proof/Machine/State.lean ====
section
/-! DEFINITION. The state of the machine, its faults and refusals, and the state after reset. -/

namespace Sys2Proof.Machine

/-- What an access is for (`60_exceptions.md` R163, the info of `UnmappedAccess`). -/
inductive AccessKind where
  | fetch
  | load
  | store
deriving DecidableEq, Repr

/-- The spec's faults (`60_exceptions.md` R162, R163): terminal outcomes of the model in which the state is exactly the
state before the step (R165). They mark situations the source leaves undefined, so each is SAFE: hardware may go on
where the model stops, and nothing is claimed of what it does. Addresses are natural numbers below `2^W`. -/
inductive Fault where
  /-- Raised by the fetch when the program counter is odd (`20_memory.md` R33). Safe: unreachable (`10_state.md` R18). -/
  | misalignedFetch (pc : Nat)
  /-- Raised by the fetch outside RAM (`20_memory.md` R33) and by a load or store that is neither RAM nor a device
  register (R38). Safe: the source says nothing of these addresses. -/
  | unmappedAccess (addr : Nat) (kind : AccessKind)
  /-- Raised by the step when the word fetched is no instruction (`30_encoding.md` R53), and by HCF with
  `HCF_POLICY = reserved` (`44_hcf.md` R111). Safe: the source defines no behaviour. -/
  | reservedInstruction (word : InstrWord)
  /-- Raised by LDW and STW at an address that is no multiple of the word size (`20_memory.md` R31). Safe. -/
  | misalignedAccess (addr : Nat)
  /-- Raised by a taken branch to an odd address (`43_branch.md` R99). Safe. -/
  | misalignedTarget (target : Nat)
  /-- Raised by an access in the device range that is neither a word store to an output register nor a word load from
  an input register (`20_memory.md` R37, `60_exceptions.md` R175). Safe. -/
  | deviceAccess (addr : Nat)
  /-- Raised by LDW from an input register when the host gave a finite input and none is left (`60_exceptions.md` R173). Safe. -/
  | inputExhausted (addr : Nat)
deriving DecidableEq, Repr

/-- The refusals: what the model gives no step. -/
inductive Refusal where
  /-- Raised by an arm of `exec` for an instruction without a meaning; none has it. Safe. -/
  | notModelled (mnemonic : String)
  /-- Raised by the step of a machine that an HCF has halted: "no step is defined after a halt" (`44_hcf.md` R111). Safe. -/
  | stepAfterHalt
deriving DecidableEq, Repr

/-- The two output registers (`60_exceptions.md` R170). -/
inductive OutPort where
  /-- `OUT_CHAR`, "Saída (character)". -/
  | char
  /-- `OUT_INT`, "Saída (inteiro)". -/
  | int
deriving DecidableEq, Repr

/-- One value emitted: the register it was stored to and the whole `W`-bit value (`60_exceptions.md` R171, R172). -/
structure OutEvent (v : Variant) where
  port : OutPort
  value : Word v
deriving DecidableEq, Repr

/-- The not-yet-consumed input of an input register (`60_exceptions.md` R173): the finite sequence a host gave, or the
oracle, an unbounded sequence of free values of which `drawn` have been consumed. -/
inductive Input (α : Type) where
  | finite (items : List α)
  | oracle (drawn : Nat)
deriving DecidableEq, Repr

/-- The bytes of RAM: (address, byte) pairs in canonical form (`Memory.wf`); an unlisted byte reads `Config.unlistedByte`. -/
abbrev Memory := List Host.Cell

/-- The state of a core of the variant `v` and of the platform around it (`10_state.md` R10 to R24). -/
structure Core (v : Variant) where
  /-- The address of the instruction to execute (`10_state.md` R15, R16). -/
  pc : Word v
  /-- `r0` to `r7`, ordinary storage, none hardwired (`10_state.md` R10, R11). -/
  regs : Vector (Word v) 8
  /-- RAM (`10_state.md` R22, `20_memory.md` R36). -/
  mem : Memory
  /-- The values emitted so far, oldest first (`60_exceptions.md` R170). -/
  out : List (OutEvent v)
  /-- The character input not yet consumed: codes 0 to 255 (`60_exceptions.md` R173, `92_eei_decisions.md` D19). -/
  inChar : Input Byte
  /-- The integer input not yet consumed (`60_exceptions.md` R174). -/
  inInt : Input Int
  /-- The model's own: an HCF has run, the outcome is `Halted` (`44_hcf.md` R111; log 6). -/
  halted : Bool
deriving DecidableEq, Repr

/-- The machine: the parameters of the run, constant (log 1, log 2), and the core of that variant. -/
structure State where
  params : Params
  core : Core params.variant
deriving DecidableEq, Repr

/-- The start state of a run (`70_reset_and_hazards.md` R182, `10_state.md` §6) for the parameters the host chooses:
`INIT_GPR` (`r0` to `r6`), the content of RAM and the inputs. -/
def State.launch (params : Params) (initGpr : Vector (Word params.variant) 7) (mem : Memory)
    (inChar : Input Byte) (inInt : Input Int) : State :=
  { params := params
    core :=
      { pc := params.variant.resetPc
        regs := initGpr.push params.variant.stackTop
        mem := mem
        out := []
        inChar := inChar
        inInt := inInt
        halted := false } }

/-- The machine right after reset: `pc = 0`, `sp = STACK_TOP`, no output (`70_reset_and_hazards.md` R182). The rest is
left open by the spec and is a DESIGN CHOICE: the standard parameters (log 1, 2), `r0` to `r6` zero (log 3), no byte of
RAM listed (log 4), both inputs the oracle with nothing drawn (log 5). -/
def State.reset : State :=
  State.launch .standard (Vector.replicate 7 0) [] (.oracle 0) (.oracle 0)

end Sys2Proof.Machine
end

