-- ==== Sys2Proof/Machine/Flags.lean ====
section
/-! DEFINITION. There are no status flags (`10_state.md` R19). This file has the two comparisons, and the signals inside
the ALU by which the manual describes them (`40_computation.md` R77): no state holds these, no meaning reads them. -/

namespace Sys2Proof.Machine

variable {v : Variant}

/-- `s(a) < s(b)`: the condition of SLT (`40_computation.md` R67, R68). -/
def lessSigned (a b : Word v) : Bool := decide (a.toInt < b.toInt)

/-- `u(a) < u(b)`: the condition of SLTU (`40_computation.md` R69, R70). -/
def lessUnsigned (a b : Word v) : Bool := decide (a.toNat < b.toNat)

/-- Zero, the condition of the branches: every bit is 0 (`43_branch.md` R95). -/
def isZero (a : Word v) : Bool := decide (a = 0#v.width)

/-- `d = (a - b) mod 2^W`, the subtraction a comparison performs inside the ALU (`40_computation.md` R77). -/
def aluDifference (a b : Word v) : Word v := a - b

/-- `N = d[W-1]` (`40_computation.md` R77). -/
def aluNegative (a b : Word v) : Bool := (aluDifference a b).msb

/-- `V`: `a` and `b` differ in sign and `d` differs in sign from `a` (`40_computation.md` R77). -/
def aluOverflow (a b : Word v) : Bool := (a.msb != b.msb) && ((aluDifference a b).msb != a.msb)

/-- `C`, the borrow of the subtraction: the exact difference of the unsigned values is negative (`40_computation.md` R77). -/
def aluBorrow (a b : Word v) : Bool := decide ((a.toNat : Int) - (b.toNat : Int) < 0)

end Sys2Proof.Machine
end

