-- ==== Sys2Proof/Machine/Operands.lean ====
section
/-! DEFINITION. The operand forms: how an 8-bit immediate, a byte and a condition become a word (`30_encoding.md` R48,
R49; `20_memory.md` R27, R30; `00_scope.md` §5.1). -/

namespace Sys2Proof.Machine

variable {v : Variant}

/-- `zext_W(k)`: the immediate of AND, OR and LDC (`30_encoding.md` R48), and the code of an input character
(`60_exceptions.md` R173). -/
def zextImm (v : Variant) (k : Byte) : Word v := k.setWidth v.width

/-- `sext_W(k)`: the immediate of every other form, and the byte LDB loads (`30_encoding.md` R48, `42_load_store.md` R86). -/
def sextImm (v : Variant) (k : Byte) : Word v := k.signExtend v.width

/-- The low byte of a word, `x[7:0]`: the datum of STB (`42_load_store.md` R87). -/
def lowByte (x : Word v) : Byte := x.setWidth 8

/-- A condition as a word: "armazenado no bit menos significativo do registrador destino, sendo os outros zerados"
(`40_computation.md` R67, R69). -/
def conditionWord (v : Variant) (b : Bool) : Word v := if b then 1#v.width else 0#v.width

/-- LDC's value: the old word shifted left by a byte with the immediate in the low byte (`40_computation.md` R76). -/
def shiftInByte (x : Word v) (k : Byte) : Word v := (x <<< 8) ||| zextImm v k

/-- `>>u 1` (`41_shift.md` R81). -/
def shiftRightLogical (x : Word v) : Word v := x >>> 1

/-- `>>s 1` (`41_shift.md` R82). -/
def shiftRightArithmetic (x : Word v) : Word v := x.sshiftRight 1

/-- The bytes of a word, most significant first: the order of their addresses (`20_memory.md` R27, R29). -/
def bytesOfRegister : {v : Variant} → Word v → List Byte
  | .w16, (x : BitVec 16) => [x.extractLsb' 8 8, x.extractLsb' 0 8]
  | .w32, (x : BitVec 32) => [x.extractLsb' 24 8, x.extractLsb' 16 8, x.extractLsb' 8 8, x.extractLsb' 0 8]

end Sys2Proof.Machine
end

