-- ==== Sys2Proof/Machine/Ops.lean ====
section
/-! DEFINITION. The named operations over registers, memory and devices that every meaning is built from. The hardware
has no exception to take and none to return from (`60_exceptions.md` R160): what stands in their place is the model's
fault, `Except.error`, which carries no state, so that a faulting step changes nothing (R162, R165). -/

namespace Sys2Proof.Machine

variable {v : Variant}

/-! ## Memory (`20_memory.md` R25 to R30, R39) -/

/-- `M[a]`: the byte listed at an address, or the byte an unlisted address reads as. -/
def Memory.read : Memory → Nat → Byte
  | [], _ => Config.unlistedByte
  | (b, x) :: rest, a => if a = b then x else Memory.read rest a

/-- The memory without an entry for the address `a`. -/
def Memory.erase (m : Memory) (a : Nat) : Memory := m.filter (fun c => c.1 != a)

/-- The memory with the entry `(a, x)` before the first entry of a higher address. -/
def Memory.insert : Memory → Nat → Byte → Memory
  | [], a, x => [(a, x)]
  | (b, y) :: rest, a, x => if a < b then (a, x) :: (b, y) :: rest else (b, y) :: Memory.insert rest a x

/-- `M[a] <- x`: writing what an unlisted address reads as removes the entry, so the canonical form is kept. -/
def Memory.write (m : Memory) (a : Nat) (x : Byte) : Memory :=
  if x = Config.unlistedByte then m.erase a else (m.erase a).insert a x

/-- The canonical form: addresses strictly rising, and no entry equal to what an unlisted address reads as. -/
def Memory.wf : Memory → Bool
  | [] => true
  | c :: rest => (c.2 != Config.unlistedByte) && rest.all (fun d => decide (c.1 < d.1)) && Memory.wf rest

/-- `MemRead(a, WB)`: `M[a] ++ M[a+1] ++ …`, the first byte the most significant (`20_memory.md` R28). -/
def Memory.readWord (m : Memory) : (v : Variant) → Nat → Word v
  | .w16, a => (m.read a ++ m.read (a + 1) : BitVec 16)
  | .w32, a => (m.read a ++ m.read (a + 1) ++ m.read (a + 2) ++ m.read (a + 3) : BitVec 32)

/-- The bytes at `a`, `a + 1`, … (`20_memory.md` R29). -/
def Memory.writeBytes (m : Memory) (a : Nat) : List Byte → Memory
  | [] => m
  | x :: rest => Memory.writeBytes (m.write a x) (a + 1) rest

/-- `MemWrite(a, WB, x)`: the most significant byte at `a` (`20_memory.md` R29). -/
def Memory.writeWord (m : Memory) (a : Nat) (x : Word v) : Memory := m.writeBytes a (bytesOfRegister x)

/-! ## Registers and the program counter (`10_state.md` R10 to R18) -/

/-- `x[i]` (`10_state.md` R10, R11): no register is hardwired. -/
def Core.reg (m : Core v) (r : Reg) : Word v := m.regs[r.val]

/-- `x[i] <- y` (`10_state.md` R10, R11). -/
def Core.setReg (m : Core v) (r : Reg) (y : Word v) : Core v := { m with regs := m.regs.set r.val y }

/-- `npc`, the address of the next instruction in sequence, modulo `2^W` (`10_state.md` R16, R17). -/
def Core.npc (m : Core v) : Word v := m.pc + 2#v.width

/-- `pc <- target` (`00_scope.md` §5.2). -/
def Core.jump (m : Core v) (target : Word v) : Core v := { m with pc := target }

/-- `pc <- npc`: the end of an instruction that is no taken branch (`00_scope.md` R8). -/
def Core.advance (m : Core v) : Core v := m.jump m.npc

/-- Replace the content of memory. -/
def Core.setMem (m : Core v) (mem : Memory) : Core v := { m with mem := mem }

/-- Append an event to the output (`60_exceptions.md` R171, R172). -/
def Core.emit (m : Core v) (port : OutPort) (y : Word v) : Core v := { m with out := m.out ++ [⟨port, y⟩] }

/-- Replace the character input that is left. -/
def Core.setInChar (m : Core v) (i : Input Byte) : Core v := { m with inChar := i }

/-- Replace the integer input that is left. -/
def Core.setInInt (m : Core v) (i : Input Int) : Core v := { m with inInt := i }

/-- The run has ended with outcome `Halted` (`44_hcf.md` R111). -/
def Core.halt (m : Core v) : Core v := { m with halted := true }

/-! ## Input (`60_exceptions.md` R173, R174) -/

/-- The next item of an input and what is left: nothing when a finite input has run out; from the oracle, always a
draw (`60_exceptions.md` R173). -/
def Input.take {α : Type} (draw : Nat → α) : Input α → Option (α × Input α)
  | .finite [] => none
  | .finite (x :: rest) => some (x, .finite rest)
  | .oracle n => some (draw n, .oracle (n + 1))

/-- LDW from `IN_CHAR`: the next character item, "its code zero-extended" (`60_exceptions.md` R173). -/
def Core.takeChar (m : Core v) : Except Fault (Word v × Core v) :=
  match m.inChar.take Config.charInput with
  | none => .error (.inputExhausted v.inCharAddr)
  | some (c, rest) => .ok (zextImm v c, m.setInChar rest)

/-- LDW from `IN_INT`: the next integer item modulo `2^W` (`60_exceptions.md` R174). -/
def Core.takeInt (m : Core v) : Except Fault (Word v × Core v) :=
  match m.inInt.take Config.intInput with
  | none => .error (.inputExhausted v.inIntAddr)
  | some (n, rest) => .ok (BitVec.ofInt v.width n, m.setInInt rest)

/-! ## Accesses (`42_load_store.md` R90) -/

/-- The region an access lies in (`20_memory.md` R36 to R38). -/
inductive Region where
  | ram
  | device
  | unmapped
deriving DecidableEq, Repr

/-- The region of an access of `n` bytes at `addr`, on natural numbers, with no wrap (`42_load_store.md` R90). -/
def regionOf (v : Variant) (addr n : Nat) : Region :=
  if addr + n ≤ v.ramSize then .ram
  else if v.outCharAddr ≤ addr ∧ addr < v.inIntAddr + v.wordBytes then .device
  else .unmapped

/-- A word load from the device range: an input register, or a fault (`42_load_store.md` R90, step 3). -/
def Core.loadDevice (m : Core v) (addr : Nat) : Except Fault (Word v × Core v) :=
  if addr = v.inCharAddr then m.takeChar
  else if addr = v.inIntAddr then m.takeInt
  else .error (.deviceAccess addr)

/-- A word store to the device range: an output register, or a fault (`42_load_store.md` R90, step 3). -/
def Core.storeDevice (m : Core v) (addr : Nat) (y : Word v) : Except Fault (Core v) :=
  if addr = v.outCharAddr then .ok (m.emit .char y)
  else if addr = v.outIntAddr then .ok (m.emit .int y)
  else .error (.deviceAccess addr)

/-- `DataAccess(addr, 1, load)` (`42_load_store.md` R90). -/
def Core.loadByte (m : Core v) (addr : Nat) : Except Fault Byte :=
  match regionOf v addr 1 with
  | .ram => .ok (m.mem.read addr)
  | .device => .error (.deviceAccess addr)
  | .unmapped => .error (.unmappedAccess addr .load)

/-- `DataAccess(addr, 1, store)` (`42_load_store.md` R90). -/
def Core.storeByte (m : Core v) (addr : Nat) (x : Byte) : Except Fault (Core v) :=
  match regionOf v addr 1 with
  | .ram => .ok (m.setMem (m.mem.write addr x))
  | .device => .error (.deviceAccess addr)
  | .unmapped => .error (.unmappedAccess addr .store)

/-- `DataAccess(addr, WB, load)`: the word and the core with its input consumed (`42_load_store.md` R90). -/
def Core.loadWord (m : Core v) (addr : Nat) : Except Fault (Word v × Core v) :=
  if addr % v.wordBytes ≠ 0 then .error (.misalignedAccess addr)
  else match regionOf v addr v.wordBytes with
    | .ram => .ok (m.mem.readWord v addr, m)
    | .device => m.loadDevice addr
    | .unmapped => .error (.unmappedAccess addr .load)

/-- `DataAccess(addr, WB, store)` (`42_load_store.md` R90). -/
def Core.storeWord (m : Core v) (addr : Nat) (y : Word v) : Except Fault (Core v) :=
  if addr % v.wordBytes ≠ 0 then .error (.misalignedAccess addr)
  else match regionOf v addr v.wordBytes with
    | .ram => .ok (m.setMem (m.mem.writeWord addr y))
    | .device => m.storeDevice addr y
    | .unmapped => .error (.unmappedAccess addr .store)

/-- `Fetch(pc)`: two bytes from RAM at an even address, big-endian; devices are not executable (`20_memory.md` R33). -/
def Core.fetch (m : Core v) : Except Fault InstrWord :=
  if m.pc.toNat % 2 = 1 then .error (.misalignedFetch m.pc.toNat)
  else if m.pc.toNat + 2 ≤ v.ramSize then
    .ok (wordOfBytes (m.mem.read m.pc.toNat) (m.mem.read (m.pc.toNat + 1)))
  else .error (.unmappedAccess m.pc.toNat .fetch)

/-! ## The shapes of the meanings -/

/-- The effective address of a load or store: the base register as it is (`42_load_store.md` R85). -/
def Core.dataAddress (m : Core v) (rsb : Reg) : Nat := (m.reg rsb).toNat

/-- The target of a PC-relative branch, `npc + sext_W(k)` modulo `2^W` (`43_branch.md` R98). -/
def Core.relativeTarget (m : Core v) (k : Byte) : Word v := m.npc + sextImm v k

/-- A computation or a shift: write the result, go on in sequence (`40_computation.md` R60, `41_shift.md` R80). -/
def Core.compute (m : Core v) (rst : Reg) (y : Word v) : Except Fault (Core v) := .ok (m.setReg rst y).advance

/-- A branch: only the program counter changes; a taken branch to an odd target faults, one not taken never does
(`43_branch.md` R95, R99). -/
def Core.branch (m : Core v) (taken : Bool) (target : Word v) : Except Fault (Core v) :=
  if taken then
    if target.getLsbD 0 then .error (.misalignedTarget target.toNat) else .ok (m.jump target)
  else .ok m.advance

/-- Run a core operation as the execution of an instruction of the machine: the parameters stay, a fault stops. -/
def State.perform (s : State) (f : Core s.params.variant → Except Fault (Core s.params.variant)) :
    Host.Outcome State Fault Refusal :=
  match f s.core with
  | .ok m => .next ⟨s.params, m⟩
  | .error r => .fault r

end Sys2Proof.Machine
end

