-- ==== Sys2Proof/Machine/Branch.lean ====
section
/-! DEFINITION. The conditional branches, `43_branch.md`: BEZ and BNZ, to a register or relative to the next
instruction (R95, R98, R99). They write no register (`10_state.md` R14) and have no delay slot (R102). -/

namespace Sys2Proof.Machine

/-- If `x[RsA] = 0`, go to `x[RsB]` (R96). -/
def execBezR (rsa rsb : Reg) (s : State) : Host.Outcome State Fault Refusal :=
  s.perform fun m => m.branch (isZero (m.reg rsa)) (m.reg rsb)

/-- If `x[Rst] = 0`, go to `npc + sext_W(k)` (R97). -/
def execBezI (rst : Reg) (imm : Byte) (s : State) : Host.Outcome State Fault Refusal :=
  s.perform fun m => m.branch (isZero (m.reg rst)) (m.relativeTarget imm)

/-- If `x[RsA] != 0`, go to `x[RsB]` (R100). -/
def execBnzR (rsa rsb : Reg) (s : State) : Host.Outcome State Fault Refusal :=
  s.perform fun m => m.branch (!isZero (m.reg rsa)) (m.reg rsb)

/-- If `x[Rst] != 0`, go to `npc + sext_W(k)` (R101). -/
def execBnzI (rst : Reg) (imm : Byte) (s : State) : Host.Outcome State Fault Refusal :=
  s.perform fun m => m.branch (!isZero (m.reg rst)) (m.relativeTarget imm)

end Sys2Proof.Machine
end

