-- ==== Sys2Proof/Machine/Compute.lean ====
section
/-! DEFINITION. The computation instructions, `40_computation.md`: AND, OR, XOR, SLT, SLTU, ADD, SUB, LDR, LDC. Each
reads its sources, writes `x[Rst]` and goes on in sequence (R60); arithmetic wraps modulo `2^W` (R79). -/

namespace Sys2Proof.Machine

/-- `x[Rst] <- x[RsA] and x[RsB]` (R61). -/
def execAndR (rst rsa rsb : Reg) (s : State) : Host.Outcome State Fault Refusal :=
  s.perform fun m => m.compute rst (m.reg rsa &&& m.reg rsb)

/-- `x[Rst] <- x[Rst] and zext_W(k)` (R62). -/
def execAndI (rst : Reg) (imm : Byte) (s : State) : Host.Outcome State Fault Refusal :=
  s.perform fun m => m.compute rst (m.reg rst &&& zextImm _ imm)

/-- `x[Rst] <- x[RsA] or x[RsB]` (R63). -/
def execOrR (rst rsa rsb : Reg) (s : State) : Host.Outcome State Fault Refusal :=
  s.perform fun m => m.compute rst (m.reg rsa ||| m.reg rsb)

/-- `x[Rst] <- x[Rst] or zext_W(k)` (R64). -/
def execOrI (rst : Reg) (imm : Byte) (s : State) : Host.Outcome State Fault Refusal :=
  s.perform fun m => m.compute rst (m.reg rst ||| zextImm _ imm)

/-- `x[Rst] <- x[RsA] xor x[RsB]` (R65). -/
def execXorR (rst rsa rsb : Reg) (s : State) : Host.Outcome State Fault Refusal :=
  s.perform fun m => m.compute rst (m.reg rsa ^^^ m.reg rsb)

/-- `x[Rst] <- x[Rst] xor sext_W(k)` (R66). -/
def execXorI (rst : Reg) (imm : Byte) (s : State) : Host.Outcome State Fault Refusal :=
  s.perform fun m => m.compute rst (m.reg rst ^^^ sextImm _ imm)

/-- `x[Rst] <- (if s(x[RsA]) < s(x[RsB]) then 1 else 0)` (R67). -/
def execSltR (rst rsa rsb : Reg) (s : State) : Host.Outcome State Fault Refusal :=
  s.perform fun m => m.compute rst (conditionWord _ (lessSigned (m.reg rsa) (m.reg rsb)))

/-- `x[Rst] <- (if s(x[Rst]) < s(sext_W(k)) then 1 else 0)` (R68; `90_conflicts.md` C2). -/
def execSltI (rst : Reg) (imm : Byte) (s : State) : Host.Outcome State Fault Refusal :=
  s.perform fun m => m.compute rst (conditionWord _ (lessSigned (m.reg rst) (sextImm _ imm)))

/-- `x[Rst] <- (if u(x[RsA]) < u(x[RsB]) then 1 else 0)` (R69). -/
def execSltuR (rst rsa rsb : Reg) (s : State) : Host.Outcome State Fault Refusal :=
  s.perform fun m => m.compute rst (conditionWord _ (lessUnsigned (m.reg rsa) (m.reg rsb)))

/-- `x[Rst] <- (if u(x[Rst]) < u(sext_W(k)) then 1 else 0)`: sign-extended, then compared as unsigned (R70; C2). -/
def execSltuI (rst : Reg) (imm : Byte) (s : State) : Host.Outcome State Fault Refusal :=
  s.perform fun m => m.compute rst (conditionWord _ (lessUnsigned (m.reg rst) (sextImm _ imm)))

/-- `x[Rst] <- (x[RsA] + x[RsB]) mod 2^W` (R71). -/
def execAddR (rst rsa rsb : Reg) (s : State) : Host.Outcome State Fault Refusal :=
  s.perform fun m => m.compute rst (m.reg rsa + m.reg rsb)

/-- `x[Rst] <- (x[Rst] + sext_W(k)) mod 2^W` (R72). -/
def execAddI (rst : Reg) (imm : Byte) (s : State) : Host.Outcome State Fault Refusal :=
  s.perform fun m => m.compute rst (m.reg rst + sextImm _ imm)

/-- `x[Rst] <- (x[RsA] - x[RsB]) mod 2^W` (R73). -/
def execSubR (rst rsa rsb : Reg) (s : State) : Host.Outcome State Fault Refusal :=
  s.perform fun m => m.compute rst (m.reg rsa - m.reg rsb)

/-- `x[Rst] <- (x[Rst] - sext_W(k)) mod 2^W` (R74). -/
def execSubI (rst : Reg) (imm : Byte) (s : State) : Host.Outcome State Fault Refusal :=
  s.perform fun m => m.compute rst (m.reg rst - sextImm _ imm)

/-- `x[Rst] <- sext_W(k)` (R75). -/
def execLdr (rst : Reg) (imm : Byte) (s : State) : Host.Outcome State Fault Refusal :=
  s.perform fun m => m.compute rst (sextImm _ imm)

/-- `x[Rst] <- ((x[Rst] << 8) mod 2^W) or zext_W(k)` (R76). -/
def execLdc (rst : Reg) (imm : Byte) (s : State) : Host.Outcome State Fault Refusal :=
  s.perform fun m => m.compute rst (shiftInByte (m.reg rst) imm)

end Sys2Proof.Machine
end

