-- ==== Sys2Proof/Machine/Hcf.lean ====
section
/-! DEFINITION. HCF, the simulator's stop instruction, `44_hcf.md` R110, R111. -/

namespace Sys2Proof.Machine

/-- With `HCF_POLICY = halt` the run ends: nothing changes, `pc` keeps the address of the HCF, and the state records the
outcome `Halted`. With `HCF_POLICY = reserved` the word is a reserved encoding (R111; log 6). -/
def execHcf (s : State) : Host.Outcome State Fault Refusal :=
  s.perform fun m =>
    match s.params.policy.hcf with
    | .halt => .ok m.halt
    | .reserved => .error (.reservedInstruction hcfWord)

end Sys2Proof.Machine
end

