-- ==== Sys2Proof/Machine/LoadStore.lean ====
section
/-! DEFINITION. The load and store instructions, `42_load_store.md`: LDB, STB, LDW, STW. The address is `x[RsB]` as it
is (R85); the checks and their order are `DataAccess` (R90). A store writes no register (`10_state.md` R14). -/

namespace Sys2Proof.Machine

/-- `b <- DataAccess(x[RsB], 1, load)`; `x[Rst] <- sext_W(b)` (R86). -/
def execLdb (rst rsb : Reg) (s : State) : Host.Outcome State Fault Refusal :=
  s.perform fun m =>
    match m.loadByte (m.dataAddress rsb) with
    | .ok b => .ok (m.setReg rst (sextImm _ b)).advance
    | .error r => .error r

/-- `DataAccess(x[RsB], 1, store)` with `x[RsA][7:0]` (R87). -/
def execStb (rsa rsb : Reg) (s : State) : Host.Outcome State Fault Refusal :=
  s.perform fun m =>
    match m.storeByte (m.dataAddress rsb) (lowByte (m.reg rsa)) with
    | .ok m' => .ok m'.advance
    | .error r => .error r

/-- `x[Rst] <- DataAccess(x[RsB], WB, load)`: RAM, or one item of input (R88). -/
def execLdw (rst rsb : Reg) (s : State) : Host.Outcome State Fault Refusal :=
  s.perform fun m =>
    match m.loadWord (m.dataAddress rsb) with
    | .ok (y, m') => .ok (m'.setReg rst y).advance
    | .error r => .error r

/-- `DataAccess(x[RsB], WB, store)` with `x[RsA]`: RAM, or one event of output (R89). -/
def execStw (rsa rsb : Reg) (s : State) : Host.Outcome State Fault Refusal :=
  s.perform fun m =>
    match m.storeWord (m.dataAddress rsb) (m.reg rsa) with
    | .ok m' => .ok m'.advance
    | .error r => .error r

end Sys2Proof.Machine
end

