-- ==== Sys2Proof/Machine/Shift.lean ====
section
/-! DEFINITION. The shift instructions, `41_shift.md`: LSR and ASR, one bit to the right (R80). The fixed field `RsB`
names register 0, whose value plays no part. -/

namespace Sys2Proof.Machine

/-- `x[Rst] <- x[RsA] >>u 1` (R81). -/
def execLsr (rst rsa : Reg) (s : State) : Host.Outcome State Fault Refusal :=
  s.perform fun m => m.compute rst (shiftRightLogical (m.reg rsa))

/-- `x[Rst] <- x[RsA] >>s 1` (R82). -/
def execAsr (rst rsa : Reg) (s : State) : Host.Outcome State Fault Refusal :=
  s.perform fun m => m.compute rst (shiftRightArithmetic (m.reg rsa))

end Sys2Proof.Machine
end

