-- ==== Sys2Proof/Machine/Dispatch.lean ====
section
/-! DEFINITION. One arm for each constructor of `Instr`: the meaning of the instruction, from the address it was fetched
at to `pc <- npc` (`00_scope.md` R8). -/

namespace Sys2Proof.Machine

def exec (i : Instr) (s : State) : Host.Outcome State Fault Refusal :=
  match i with
  | .andR rst rsa rsb => Sys2Proof.Machine.execAndR rst rsa rsb s
  | .andI rst imm => Sys2Proof.Machine.execAndI rst imm s
  | .orR rst rsa rsb => Sys2Proof.Machine.execOrR rst rsa rsb s
  | .orI rst imm => Sys2Proof.Machine.execOrI rst imm s
  | .xorR rst rsa rsb => Sys2Proof.Machine.execXorR rst rsa rsb s
  | .xorI rst imm => Sys2Proof.Machine.execXorI rst imm s
  | .sltR rst rsa rsb => Sys2Proof.Machine.execSltR rst rsa rsb s
  | .sltI rst imm => Sys2Proof.Machine.execSltI rst imm s
  | .sltuR rst rsa rsb => Sys2Proof.Machine.execSltuR rst rsa rsb s
  | .sltuI rst imm => Sys2Proof.Machine.execSltuI rst imm s
  | .addR rst rsa rsb => Sys2Proof.Machine.execAddR rst rsa rsb s
  | .addI rst imm => Sys2Proof.Machine.execAddI rst imm s
  | .subR rst rsa rsb => Sys2Proof.Machine.execSubR rst rsa rsb s
  | .subI rst imm => Sys2Proof.Machine.execSubI rst imm s
  | .ldr rst imm => Sys2Proof.Machine.execLdr rst imm s
  | .ldc rst imm => Sys2Proof.Machine.execLdc rst imm s
  | .lsr rst rsa => Sys2Proof.Machine.execLsr rst rsa s
  | .asr rst rsa => Sys2Proof.Machine.execAsr rst rsa s
  | .ldb rst rsb => Sys2Proof.Machine.execLdb rst rsb s
  | .stb rsa rsb => Sys2Proof.Machine.execStb rsa rsb s
  | .ldw rst rsb => Sys2Proof.Machine.execLdw rst rsb s
  | .stw rsa rsb => Sys2Proof.Machine.execStw rsa rsb s
  | .bezR rsa rsb => Sys2Proof.Machine.execBezR rsa rsb s
  | .bezI rst imm => Sys2Proof.Machine.execBezI rst imm s
  | .bnzR rsa rsb => Sys2Proof.Machine.execBnzR rsa rsb s
  | .bnzI rst imm => Sys2Proof.Machine.execBnzI rst imm s
  | .hcf => Sys2Proof.Machine.execHcf s

end Sys2Proof.Machine
end

