-- ==== Sys2Proof/Machine/Step.lean ====
section
/-! DEFINITION. One step of the machine (`00_scope.md` R8), and the placing of an instruction where it is fetched. -/

namespace Sys2Proof.Machine

/-- Fetch, decode, execute (`00_scope.md` R8), with the checks in the order of `60_exceptions.md` R164. A halted machine
has no step (`44_hcf.md` R111). -/
def step (s : State) : Host.Outcome State Fault Refusal :=
  if s.core.halted then .refused .stepAfterHalt
  else match s.core.fetch with
    | .error r => .fault r
    | .ok w => match decode s.params.policy w with
      | .ok i => exec i s
      | .error _ => .fault (.reservedInstruction w)

/-- `s` with the instruction word `w` (its low 16 bits) in memory at the program counter, the first byte the most
significant (`20_memory.md` R27). It stands for the host's loading of an image (`70_reset_and_hazards.md` R181; log 10). -/
def State.withFetchWord (s : State) (_nbits w : Nat) : State :=
  ⟨s.params, s.core.setMem (s.core.mem.writeBytes s.core.pc.toNat (bytesOfWord (BitVec.ofNat 16 w)))⟩

end Sys2Proof.Machine
end

