-- ==== Sys2Proof/Laws/Memory.lean ====
section
/-! SUPPORT. The laws of memory: a read after a write, and the canonical form that every operation keeps. The read laws
hold of every list, canonical or not. -/

namespace Sys2Proof.Machine

/-! ## Erasing and inserting an entry -/

theorem Memory.read_erase_same (m : Memory) (a : Nat) : (m.erase a).read a = Config.unlistedByte := by
  induction m with
  | nil => rfl
  | cons c rest ih =>
    obtain ⟨b, y⟩ := c
    by_cases h : b = a
    · simpa [Memory.erase, h] using ih
    · have : a ≠ b := fun e => h e.symm
      simpa [Memory.erase, h, Memory.read, this] using ih

theorem Memory.read_erase_other (m : Memory) {a b : Nat} (h : b ≠ a) : (m.erase a).read b = m.read b := by
  induction m with
  | nil => rfl
  | cons c rest ih =>
    obtain ⟨d, y⟩ := c
    by_cases hd : d = a
    · have : b ≠ d := fun e => h (e.trans hd)
      simpa [Memory.erase, hd, Memory.read, h] using ih
    · by_cases hb : b = d
      · simp [Memory.erase, hd, Memory.read, hb]
      · simpa [Memory.erase, hd, Memory.read, hb] using ih

theorem Memory.mem_erase {m : Memory} {a : Nat} {c : Host.Cell} : c ∈ m.erase a ↔ c ∈ m ∧ c.1 ≠ a := by
  simp [Memory.erase]

theorem Memory.read_insert_other (m : Memory) {a b : Nat} (x : Byte) (h : b ≠ a) : (m.insert a x).read b = m.read b := by
  induction m with
  | nil => simp [Memory.insert, Memory.read, h]
  | cons c rest ih =>
    obtain ⟨d, y⟩ := c
    by_cases hd : a < d
    · simp [Memory.insert, hd, Memory.read, h]
    · by_cases hb : b = d <;> simp [Memory.insert, hd, Memory.read, hb, ih]

theorem Memory.read_insert_same (m : Memory) (a : Nat) (x : Byte) (h : ∀ c ∈ m, c.1 ≠ a) : (m.insert a x).read a = x := by
  induction m with
  | nil => simp [Memory.insert, Memory.read]
  | cons c rest ih =>
    obtain ⟨d, y⟩ := c
    have hd : d ≠ a := h (d, y) (by simp)
    have ih := ih fun c hc => h c (by simp [hc])
    by_cases ha : a < d
    · simp [Memory.insert, ha, Memory.read]
    · simp [Memory.insert, ha, Memory.read, Ne.symm hd, ih]

theorem Memory.mem_insert {m : Memory} {a : Nat} {x : Byte} {c : Host.Cell} :
    c ∈ m.insert a x ↔ c = (a, x) ∨ c ∈ m := by
  induction m with
  | nil => simp [Memory.insert]
  | cons d rest ih =>
    obtain ⟨b, y⟩ := d
    by_cases h : a < b
    · simp [Memory.insert, h]
    · simp only [Memory.insert, h, if_false, List.mem_cons, ih]
      tauto

/-! ## A read after a write (`20_memory.md` R36) -/

/-- Reading the byte just written gives the value written. -/
@[simp] theorem Memory.read_write_same (m : Memory) (a : Nat) (x : Byte) : (m.write a x).read a = x := by
  unfold Memory.write
  split
  · next h => rw [Memory.read_erase_same, h]
  · exact Memory.read_insert_same _ _ _ fun c hc => (Memory.mem_erase.mp hc).2

/-- A write leaves every other byte as it was. -/
theorem Memory.read_write_other (m : Memory) {a b : Nat} (x : Byte) (h : b ≠ a) : (m.write a x).read b = m.read b := by
  unfold Memory.write
  split
  · exact Memory.read_erase_other m h
  · rw [Memory.read_insert_other _ _ h, Memory.read_erase_other m h]

/-- An entry after a write is the byte written or an entry from before at another address. -/
theorem Memory.mem_write {m : Memory} {a : Nat} {x : Byte} {c : Host.Cell} (h : c ∈ m.write a x) :
    c = (a, x) ∨ (c ∈ m ∧ c.1 ≠ a) := by
  unfold Memory.write at h
  split at h
  · exact .inr (Memory.mem_erase.mp h)
  · exact (Memory.mem_insert.mp h).imp id Memory.mem_erase.mp

/-! ## The canonical form -/

/-- The canonical form of a list with a first entry. -/
theorem Memory.wf_cons {c : Host.Cell} {rest : Memory} :
    Memory.wf (c :: rest) = true ↔ c.2 ≠ Config.unlistedByte ∧ (∀ d ∈ rest, c.1 < d.1) ∧ Memory.wf rest = true := by
  simp [Memory.wf, and_assoc]

theorem Memory.wf_erase {m : Memory} (h : m.wf = true) (a : Nat) : (m.erase a).wf = true := by
  induction m with
  | nil => rfl
  | cons c rest ih =>
    obtain ⟨hc, hlt, hrest⟩ := Memory.wf_cons.mp h
    by_cases hca : c.1 = a
    · simpa [Memory.erase, hca] using ih hrest
    · have : Memory.erase (c :: rest) a = c :: Memory.erase rest a := by simp [Memory.erase, hca]
      rw [this]
      exact Memory.wf_cons.mpr ⟨hc, fun d hd => hlt d (Memory.mem_erase.mp hd).1, ih hrest⟩

theorem Memory.wf_insert {m : Memory} (h : m.wf = true) {a : Nat} {x : Byte} (hx : x ≠ Config.unlistedByte)
    (ha : ∀ c ∈ m, c.1 ≠ a) : (m.insert a x).wf = true := by
  induction m with
  | nil => simpa [Memory.insert, Memory.wf] using hx
  | cons c rest ih =>
    obtain ⟨b, y⟩ := c
    obtain ⟨hc, hlt, hrest⟩ := Memory.wf_cons.mp h
    by_cases hab : a < b
    · simp only [Memory.insert, hab, if_true]
      refine Memory.wf_cons.mpr ⟨hx, fun d hd => ?_, h⟩
      rcases List.mem_cons.mp hd with rfl | hd
      · exact hab
      · exact Nat.lt_trans hab (hlt d hd)
    · simp only [Memory.insert, hab, if_false]
      have hba : b < a := Nat.lt_of_le_of_ne (Nat.le_of_not_lt hab) (ha (b, y) (by simp))
      refine Memory.wf_cons.mpr ⟨hc, fun d hd => ?_, ih hrest fun d hd => ha d (by simp [hd])⟩
      rcases Memory.mem_insert.mp hd with rfl | hd
      · exact hba
      · exact hlt d hd

/-- Every write keeps the canonical form. -/
theorem Memory.wf_write {m : Memory} (h : m.wf = true) (a : Nat) (x : Byte) : (m.write a x).wf = true := by
  unfold Memory.write
  split
  · exact Memory.wf_erase h a
  · next hx => exact Memory.wf_insert (Memory.wf_erase h a) hx fun c hc => (Memory.mem_erase.mp hc).2

theorem Memory.wf_writeBytes {m : Memory} (h : m.wf = true) (a : Nat) (bytes : List Byte) :
    (m.writeBytes a bytes).wf = true := by
  induction bytes generalizing m a with
  | nil => exact h
  | cons x rest ih => exact ih (Memory.wf_write h a x) (a + 1)

theorem Memory.wf_writeWord {v : Variant} {m : Memory} (h : m.wf = true) (a : Nat) (x : Word v) :
    (m.writeWord a x).wf = true := Memory.wf_writeBytes h a _

/-! ## Words -/

/-- A write of bytes leaves every byte outside them as it was. -/
theorem Memory.read_writeBytes_other (m : Memory) {a b : Nat} (bytes : List Byte) (h : b < a ∨ a + bytes.length ≤ b) :
    (m.writeBytes a bytes).read b = m.read b := by
  induction bytes generalizing m a with
  | nil => rfl
  | cons x rest ih =>
    simp only [List.length_cons] at h
    have hb : b ≠ a := by omega
    rw [Memory.writeBytes, ih _ (by omega), Memory.read_write_other _ _ hb]

/-- A write of bytes, read back at any of their addresses. -/
theorem Memory.read_writeBytes_at (m : Memory) (a : Nat) (bytes : List Byte) (i : Nat) (h : i < bytes.length) :
    (m.writeBytes a bytes).read (a + i) = bytes[i] := by
  induction bytes generalizing m a i with
  | nil => simp at h
  | cons x rest ih =>
    cases i with
    | zero => rw [Memory.writeBytes, Memory.read_writeBytes_other _ _ (by omega)]; simp
    | succ i =>
      rw [Memory.writeBytes, show a + (i + 1) = a + 1 + i by omega, ih]
      · simp
      · simpa using h

@[simp] theorem bytesOfRegister_length {v : Variant} (x : Word v) : (bytesOfRegister x).length = v.wordBytes := by
  cases v <;> rfl

/-- A word written leaves every byte outside its own as it was (`20_memory.md` R29). -/
theorem Memory.read_writeWord_other {v : Variant} (m : Memory) {a b : Nat} (x : Word v) (h : b < a ∨ a + v.wordBytes ≤ b) :
    (m.writeWord a x).read b = m.read b :=
  Memory.read_writeBytes_other m _ (by simpa using h)

/-- An entry after a write of bytes lies at one of their addresses or was there before. -/
theorem Memory.mem_writeBytes {m : Memory} {a : Nat} {bytes : List Byte} {c : Host.Cell} (h : c ∈ m.writeBytes a bytes) :
    (a ≤ c.1 ∧ c.1 < a + bytes.length) ∨ c ∈ m := by
  induction bytes generalizing m a with
  | nil => exact .inr h
  | cons x rest ih =>
    simp only [List.length_cons]
    rcases ih h with h | h
    · exact .inl (by omega)
    · rcases Memory.mem_write h with rfl | h
      · exact .inl (by simp)
      · exact .inr h.1

end Sys2Proof.Machine
end

