-- ==== Sys2Proof/Machine/Simulator.lean ====
section
/-! DEFINITION. The reference simulator as a platform: loading an image, running to an outcome, and what it reports
(`70_reset_and_hazards.md` R180 to R183, `46_assembler_and_simulator.md` R148, R152 to R154, `60_exceptions.md` R178, R179). -/

namespace Sys2Proof.Machine

/-- Object code: one 16-bit word at each address (`46_assembler_and_simulator.md` R148). -/
abbrev ObjectCode := List (Nat × InstrWord)

/-- `M[a] <- w[15:8]`, `M[a+1] <- w[7:0]` for each line of object code (`70_reset_and_hazards.md` R181). -/
def Memory.load (m : Memory) : ObjectCode → Memory
  | [] => m
  | (a, w) :: rest => Memory.load (m.writeBytes a (bytesOfWord w)) rest

/-- An image must fit in RAM (`70_reset_and_hazards.md` R181). -/
def ObjectCode.fits (code : ObjectCode) (v : Variant) : Bool := code.all fun l => decide (l.1 + 2 ≤ v.ramSize)

/-- The loading of an image before the first step; an image that does not fit is not loaded (R181). -/
def State.loadImage (s : State) (code : ObjectCode) : Option State :=
  if code.fits s.params.variant then some ⟨s.params, s.core.setMem (s.core.mem.load code)⟩ else none

/-- The outcome of a run (`60_exceptions.md` R178), with the state at that point and the number of instructions
executed, the HCF not counted (`70_reset_and_hazards.md` R191). -/
inductive RunOutcome where
  /-- An HCF was fetched: the run has ended normally. -/
  | halted (final : State) (executed : Nat)
  /-- A step raised a fault: the state is the one before that step. -/
  | faulted (fault : Fault) (final : State) (executed : Nat)
  /-- A step was refused; none is, before a halt. -/
  | refused (refusal : Refusal) (final : State) (executed : Nat)
  /-- The steps given to the run were used up. -/
  | unfinished (current : State) (executed : Nat)
deriving DecidableEq, Repr

/-- At most `fuel` steps from `s`, of which `executed` instructions came before (`60_exceptions.md` R178). -/
def runFrom : (fuel executed : Nat) → State → RunOutcome
  | 0, n, s => if s.core.halted then .halted s n else .unfinished s n
  | fuel + 1, n, s =>
    if s.core.halted then .halted s n
    else match step s with
      | .next t => if t.core.halted then .halted t n else runFrom fuel (n + 1) t
      | .fault r => .faulted r s n
      | .refused r => .refused r s n

/-- A run from a launch state. -/
def State.runFor (s : State) (fuel : Nat) : RunOutcome := runFrom fuel 0 s

/-- What the simulator prints of a run that halts (`46_assembler_and_simulator.md` R154): the size of the image, the size
of memory, the values emitted, and the "cycles". How a value is shown as text is not in the source
(`93_implementation_defined.md` U15), so the events stand as they are. -/
structure Report where
  programBytes : Nat
  memorySize : Nat
  output : List (OutPort × Nat)
  cycles : Nat
deriving DecidableEq, Repr

/-- The simulator's run of an object code from a launch state, for a run that halts within `fuel` steps. -/
def simulate (s : State) (code : ObjectCode) (fuel : Nat) : Option Report :=
  match s.loadImage code with
  | none => none
  | some t => match t.runFor fuel with
    | .halted final n =>
      some ⟨2 * code.length, s.params.variant.ramSize, final.core.out.map fun e => (e.port, e.value.toNat), n⟩
    | _ => none

end Sys2Proof.Machine
end

