-- ==== Sys2Proof/Safety.lean ====
section
/-! DEFINITION. What the claims call a good state and a safe run, and the views of a state they speak in. -/

namespace Sys2Proof

/-! ## What an instruction may change -/

/-- The general register an instruction writes, if it writes one (`10_state.md` R13, R14). -/
def Instr.destination : Instr → List Reg
  | .andR rst _ _ => [rst]
  | .andI rst _ => [rst]
  | .orR rst _ _ => [rst]
  | .orI rst _ => [rst]
  | .xorR rst _ _ => [rst]
  | .xorI rst _ => [rst]
  | .sltR rst _ _ => [rst]
  | .sltI rst _ => [rst]
  | .sltuR rst _ _ => [rst]
  | .sltuI rst _ => [rst]
  | .addR rst _ _ => [rst]
  | .addI rst _ => [rst]
  | .subR rst _ _ => [rst]
  | .subI rst _ => [rst]
  | .ldr rst _ => [rst]
  | .ldc rst _ => [rst]
  | .lsr rst _ => [rst]
  | .asr rst _ => [rst]
  | .ldb rst _ => [rst]
  | .stb _ _ => []
  | .ldw rst _ => [rst]
  | .stw _ _ => []
  | .bezR _ _ => []
  | .bezI _ _ => []
  | .bnzR _ _ => []
  | .bnzI _ _ => []
  | .hcf => []

/-- The instruction stores to memory or a device (`20_memory.md` R34). -/
def Instr.isStore : Instr → Bool
  | .stb _ _ => true
  | .stw _ _ => true
  | _ => false

/-- The instruction is a branch (`43_branch.md` R95). -/
def Instr.isBranch : Instr → Bool
  | .bezR _ _ => true
  | .bezI _ _ => true
  | .bnzR _ _ => true
  | .bnzI _ _ => true
  | _ => false

end Sys2Proof

namespace Sys2Proof.Machine

/-! ## Views of a state: numbers that two states of one variant are compared by -/

/-- `W` (`00_scope.md` R2). -/
def State.width (s : State) : Nat := s.params.variant.width

/-- `u(x[r])`, the value of a register read as unsigned. -/
def State.regNat (s : State) (r : Reg) : Nat := (s.core.reg r).toNat

/-- `s(x[r])`, the value of a register read as signed. -/
def State.regInt (s : State) (r : Reg) : Int := (s.core.reg r).toInt

/-- The program counter as an address. -/
def State.pcNat (s : State) : Nat := s.core.pc.toNat

/-- `M[a]`, one byte of memory. -/
def State.byteAt (s : State) (a : Nat) : Byte := s.core.mem.read a

/-- The address of the next instruction in sequence (`10_state.md` R16, R17). -/
def State.npcNat (s : State) : Nat := (s.pcNat + 2) % 2 ^ s.width

/-- The output so far, as (register, unsigned value) pairs. -/
def State.outNat (s : State) : List (OutPort × Nat) := s.core.out.map fun e => (e.port, e.value.toNat)

/-- An input with a function applied to the items of a finite one. -/
def Input.map {α β : Type} (f : α → β) : Input α → Input β
  | .finite items => .finite (items.map f)
  | .oracle n => .oracle n

/-- The character input left, its items as character codes. -/
def State.inCharNat (s : State) : Input Nat := s.core.inChar.map BitVec.toNat

/-- The value of a sequence of bytes, the first the most significant (`20_memory.md` R27, R28). -/
def bigEndian (bytes : List Byte) : Nat := bytes.foldl (fun n b => 256 * n + b.toNat) 0

/-- The word of memory at an address, as an unsigned number (`20_memory.md` R28). -/
def State.wordAt (s : State) (a : Nat) : Nat :=
  bigEndian ((List.range s.params.variant.wordBytes).map fun i => s.byteAt (a + i))

/-! ## Frames: what two states share -/

/-- The two states have the same parameters, and neither a device nor the halt differs. -/
def State.sameDevices (s t : State) : Prop :=
  t.params = s.params ∧ t.outNat = s.outNat ∧ t.inCharNat = s.inCharNat ∧ t.core.inInt = s.core.inInt ∧
    t.core.halted = s.core.halted

/-- Every register but those listed is the same. -/
def State.sameRegsBut (s t : State) (rs : List Reg) : Prop := ∀ r, r ∉ rs → t.regNat r = s.regNat r

/-- Every byte of memory is the same. -/
def State.sameMemory (s t : State) : Prop := ∀ a, t.byteAt a = s.byteAt a

/-- Every byte of memory outside the `n` bytes at `a` is the same. -/
def State.sameMemoryBut (s t : State) (a n : Nat) : Prop := ∀ b, b < a ∨ a + n ≤ b → t.byteAt b = s.byteAt b

/-- The output so far is the same. -/
def State.sameOutput (s t : State) : Prop := t.outNat = s.outNat

/-- What is left of both inputs is the same. -/
def State.sameInputs (s t : State) : Prop := t.inCharNat = s.inCharNat ∧ t.core.inInt = s.core.inInt

/-- The instruction completes: it answers a next state that goes on in sequence, with the parameters, the devices, every
byte of memory and every register outside `ds` as before, and for which `P` holds. -/
def State.completes (s : State) (i : Instr) (ds : List Reg) (P : State → Prop) : Prop :=
  ∃ t, exec i s = .next t ∧ t.pcNat = s.npcNat ∧ s.sameRegsBut t ds ∧ s.sameMemory t ∧ s.sameDevices t ∧ P t

/-- The branch completes: it answers a next state that differs at most in the program counter, which is `target`. -/
def State.goesTo (s : State) (i : Instr) (target : Nat) : Prop :=
  ∃ t, exec i s = .next t ∧ t.pcNat = target ∧ s.sameRegsBut t [] ∧ s.sameMemory t ∧ s.sameDevices t

/-! ## Good states and safe runs -/

/-- The invariant of the machine: memory is in its canonical form, every listed byte lies in RAM (devices and unmapped
addresses are no storage, `20_memory.md` R37, R38), and the program counter is even (`10_state.md` R18). -/
def State.wf (s : State) : Prop :=
  s.core.mem.wf = true ∧ (∀ c ∈ s.core.mem, c.1 < s.params.variant.ramSize) ∧ s.pcNat % 2 = 0

/-- The step neither faults nor is refused: the hypothesis a claim about a program normally carries (`60_exceptions.md` R162). -/
def State.stepsSafely (s : State) : Prop := ∃ t, step s = .next t

/-- `n` steps from `s`, none of them a fault or a refusal, lead to `t`. -/
def Steps : Nat → State → State → Prop
  | 0, s, t => t = s
  | n + 1, s, t => ∃ u, step s = .next u ∧ Steps n u t

/-- `t` is reached from `s`. -/
def Reaches (s t : State) : Prop := ∃ n, Steps n s t

end Sys2Proof.Machine
end

