-- ==== Sys2Proof/Laws/State.lean ====
section
/-! SUPPORT. One lemma per field per update of the state, so that no later proof unfolds an update. -/

namespace Sys2Proof.Machine

variable {v : Variant} (m : Core v)

@[simp] theorem Core.setReg_pc (r : Reg) (y : Word v) : (m.setReg r y).pc = m.pc := rfl
@[simp] theorem Core.setReg_regs (r : Reg) (y : Word v) : (m.setReg r y).regs = m.regs.set r.val y := rfl
@[simp] theorem Core.setReg_mem (r : Reg) (y : Word v) : (m.setReg r y).mem = m.mem := rfl
@[simp] theorem Core.setReg_out (r : Reg) (y : Word v) : (m.setReg r y).out = m.out := rfl
@[simp] theorem Core.setReg_inChar (r : Reg) (y : Word v) : (m.setReg r y).inChar = m.inChar := rfl
@[simp] theorem Core.setReg_inInt (r : Reg) (y : Word v) : (m.setReg r y).inInt = m.inInt := rfl
@[simp] theorem Core.setReg_halted (r : Reg) (y : Word v) : (m.setReg r y).halted = m.halted := rfl

@[simp] theorem Core.jump_pc (target : Word v) : (m.jump target).pc = target := rfl
@[simp] theorem Core.jump_regs (target : Word v) : (m.jump target).regs = m.regs := rfl
@[simp] theorem Core.jump_mem (target : Word v) : (m.jump target).mem = m.mem := rfl
@[simp] theorem Core.jump_out (target : Word v) : (m.jump target).out = m.out := rfl
@[simp] theorem Core.jump_inChar (target : Word v) : (m.jump target).inChar = m.inChar := rfl
@[simp] theorem Core.jump_inInt (target : Word v) : (m.jump target).inInt = m.inInt := rfl
@[simp] theorem Core.jump_halted (target : Word v) : (m.jump target).halted = m.halted := rfl
@[simp] theorem Core.jump_reg (target : Word v) (q : Reg) : (m.jump target).reg q = m.reg q := rfl

@[simp] theorem Core.advance_pc : (m.advance).pc = m.npc := rfl
@[simp] theorem Core.advance_regs : (m.advance).regs = m.regs := rfl
@[simp] theorem Core.advance_mem : (m.advance).mem = m.mem := rfl
@[simp] theorem Core.advance_out : (m.advance).out = m.out := rfl
@[simp] theorem Core.advance_inChar : (m.advance).inChar = m.inChar := rfl
@[simp] theorem Core.advance_inInt : (m.advance).inInt = m.inInt := rfl
@[simp] theorem Core.advance_halted : (m.advance).halted = m.halted := rfl
@[simp] theorem Core.advance_reg (q : Reg) : (m.advance).reg q = m.reg q := rfl

@[simp] theorem Core.setMem_pc (mem : Memory) : (m.setMem mem).pc = m.pc := rfl
@[simp] theorem Core.setMem_regs (mem : Memory) : (m.setMem mem).regs = m.regs := rfl
@[simp] theorem Core.setMem_mem (mem : Memory) : (m.setMem mem).mem = mem := rfl
@[simp] theorem Core.setMem_out (mem : Memory) : (m.setMem mem).out = m.out := rfl
@[simp] theorem Core.setMem_inChar (mem : Memory) : (m.setMem mem).inChar = m.inChar := rfl
@[simp] theorem Core.setMem_inInt (mem : Memory) : (m.setMem mem).inInt = m.inInt := rfl
@[simp] theorem Core.setMem_halted (mem : Memory) : (m.setMem mem).halted = m.halted := rfl
@[simp] theorem Core.setMem_reg (mem : Memory) (q : Reg) : (m.setMem mem).reg q = m.reg q := rfl

@[simp] theorem Core.emit_pc (port : OutPort) (y : Word v) : (m.emit port y).pc = m.pc := rfl
@[simp] theorem Core.emit_regs (port : OutPort) (y : Word v) : (m.emit port y).regs = m.regs := rfl
@[simp] theorem Core.emit_mem (port : OutPort) (y : Word v) : (m.emit port y).mem = m.mem := rfl
@[simp] theorem Core.emit_out (port : OutPort) (y : Word v) : (m.emit port y).out = m.out ++ [⟨port, y⟩] := rfl
@[simp] theorem Core.emit_inChar (port : OutPort) (y : Word v) : (m.emit port y).inChar = m.inChar := rfl
@[simp] theorem Core.emit_inInt (port : OutPort) (y : Word v) : (m.emit port y).inInt = m.inInt := rfl
@[simp] theorem Core.emit_halted (port : OutPort) (y : Word v) : (m.emit port y).halted = m.halted := rfl
@[simp] theorem Core.emit_reg (port : OutPort) (y : Word v) (q : Reg) : (m.emit port y).reg q = m.reg q := rfl

@[simp] theorem Core.setInChar_pc (i : Input Byte) : (m.setInChar i).pc = m.pc := rfl
@[simp] theorem Core.setInChar_regs (i : Input Byte) : (m.setInChar i).regs = m.regs := rfl
@[simp] theorem Core.setInChar_mem (i : Input Byte) : (m.setInChar i).mem = m.mem := rfl
@[simp] theorem Core.setInChar_out (i : Input Byte) : (m.setInChar i).out = m.out := rfl
@[simp] theorem Core.setInChar_inChar (i : Input Byte) : (m.setInChar i).inChar = i := rfl
@[simp] theorem Core.setInChar_inInt (i : Input Byte) : (m.setInChar i).inInt = m.inInt := rfl
@[simp] theorem Core.setInChar_halted (i : Input Byte) : (m.setInChar i).halted = m.halted := rfl
@[simp] theorem Core.setInChar_reg (i : Input Byte) (q : Reg) : (m.setInChar i).reg q = m.reg q := rfl

@[simp] theorem Core.setInInt_pc (i : Input Int) : (m.setInInt i).pc = m.pc := rfl
@[simp] theorem Core.setInInt_regs (i : Input Int) : (m.setInInt i).regs = m.regs := rfl
@[simp] theorem Core.setInInt_mem (i : Input Int) : (m.setInInt i).mem = m.mem := rfl
@[simp] theorem Core.setInInt_out (i : Input Int) : (m.setInInt i).out = m.out := rfl
@[simp] theorem Core.setInInt_inChar (i : Input Int) : (m.setInInt i).inChar = m.inChar := rfl
@[simp] theorem Core.setInInt_inInt (i : Input Int) : (m.setInInt i).inInt = i := rfl
@[simp] theorem Core.setInInt_halted (i : Input Int) : (m.setInInt i).halted = m.halted := rfl
@[simp] theorem Core.setInInt_reg (i : Input Int) (q : Reg) : (m.setInInt i).reg q = m.reg q := rfl

@[simp] theorem Core.halt_pc : (m.halt).pc = m.pc := rfl
@[simp] theorem Core.halt_regs : (m.halt).regs = m.regs := rfl
@[simp] theorem Core.halt_mem : (m.halt).mem = m.mem := rfl
@[simp] theorem Core.halt_out : (m.halt).out = m.out := rfl
@[simp] theorem Core.halt_inChar : (m.halt).inChar = m.inChar := rfl
@[simp] theorem Core.halt_inInt : (m.halt).inInt = m.inInt := rfl
@[simp] theorem Core.halt_halted : (m.halt).halted = true := rfl
@[simp] theorem Core.halt_reg (q : Reg) : (m.halt).reg q = m.reg q := rfl

/-- Reading the register just written gives the value written (`10_state.md` R11). -/
@[simp] theorem Core.setReg_reg_same (r : Reg) (y : Word v) : (m.setReg r y).reg r = y := by
  simp [Core.reg, Core.setReg]

/-- Reading another register gives what it held (`10_state.md` R11). -/
theorem Core.setReg_reg_other {r q : Reg} (y : Word v) (h : q ≠ r) : (m.setReg r y).reg q = m.reg q := by
  have : r.val ≠ q.val := fun e => h (Fin.ext e.symm)
  simp [Core.reg, Core.setReg, Vector.getElem_set_ne, this]

/-- The two cases of a register read after a write. -/
theorem Core.setReg_reg (r q : Reg) (y : Word v) : (m.setReg r y).reg q = if q = r then y else m.reg q := by
  split
  · next h => rw [h, Core.setReg_reg_same]
  · next h => exact Core.setReg_reg_other m y h

@[simp] theorem Core.npc_setReg (r : Reg) (y : Word v) : (m.setReg r y).npc = m.npc := rfl
@[simp] theorem Core.npc_setMem (mem : Memory) : (m.setMem mem).npc = m.npc := rfl
@[simp] theorem Core.npc_emit (port : OutPort) (y : Word v) : (m.emit port y).npc = m.npc := rfl
@[simp] theorem Core.npc_setInChar (i : Input Byte) : (m.setInChar i).npc = m.npc := rfl
@[simp] theorem Core.npc_setInInt (i : Input Int) : (m.setInInt i).npc = m.npc := rfl

/-! The views of `Safety.lean`, on a state given by its parts. -/

@[simp] theorem State.width_mk (p : Params) (c : Core p.variant) : State.width ⟨p, c⟩ = p.variant.width := rfl
@[simp] theorem State.regNat_mk (p : Params) (c : Core p.variant) (r : Reg) : State.regNat ⟨p, c⟩ r = (c.reg r).toNat := rfl
@[simp] theorem State.regInt_mk (p : Params) (c : Core p.variant) (r : Reg) : State.regInt ⟨p, c⟩ r = (c.reg r).toInt := rfl
@[simp] theorem State.pcNat_mk (p : Params) (c : Core p.variant) : State.pcNat ⟨p, c⟩ = c.pc.toNat := rfl
@[simp] theorem State.byteAt_mk (p : Params) (c : Core p.variant) (a : Nat) : State.byteAt ⟨p, c⟩ a = c.mem.read a := rfl
@[simp] theorem State.inCharNat_mk (p : Params) (c : Core p.variant) :
    State.inCharNat ⟨p, c⟩ = c.inChar.map BitVec.toNat := rfl

/-- `npcNat` is the address in `npc` (`10_state.md` R16, R17). -/
theorem State.npcNat_eq (s : State) : s.npcNat = s.core.npc.toNat := by
  obtain ⟨⟨v, p⟩, c⟩ := s
  cases v <;> rfl

/-- What `perform` answers, said once: a next state with the same parameters and the core of the operation, or the
operation's fault; never a refusal. -/
theorem State.perform_cases (s : State) (f : Core s.params.variant → Except Fault (Core s.params.variant)) :
    (∃ m, f s.core = .ok m ∧ s.perform f = .next ⟨s.params, m⟩) ∨ (∃ r, f s.core = .error r ∧ s.perform f = .fault r) := by
  unfold State.perform
  cases h : f s.core with
  | ok m => exact .inl ⟨m, rfl, rfl⟩
  | error r => exact .inr ⟨r, rfl, rfl⟩

/-- A next state of `perform` has the same parameters and the core the operation answered. -/
theorem State.perform_next {s t : State} {f : Core s.params.variant → Except Fault (Core s.params.variant)}
    (h : s.perform f = .next t) : ∃ m, f s.core = .ok m ∧ t = ⟨s.params, m⟩ := by
  obtain ⟨m, hm, e⟩ | ⟨r, -, e⟩ := s.perform_cases f
  · exact ⟨m, hm, by rw [e] at h; cases h; rfl⟩
  · rw [e] at h; cases h

/-! The state after a launch (`70_reset_and_hazards.md` R182). -/

@[simp] theorem State.launch_params (p : Params) (g : Vector (Word p.variant) 7) (mem : Memory) (ic : Input Byte)
    (ii : Input Int) : (State.launch p g mem ic ii).params = p := rfl
@[simp] theorem State.launch_pc (p : Params) (g : Vector (Word p.variant) 7) (mem : Memory) (ic : Input Byte)
    (ii : Input Int) : (State.launch p g mem ic ii).core.pc = p.variant.resetPc := rfl
@[simp] theorem State.launch_mem (p : Params) (g : Vector (Word p.variant) 7) (mem : Memory) (ic : Input Byte)
    (ii : Input Int) : (State.launch p g mem ic ii).core.mem = mem := rfl
@[simp] theorem State.launch_out (p : Params) (g : Vector (Word p.variant) 7) (mem : Memory) (ic : Input Byte)
    (ii : Input Int) : (State.launch p g mem ic ii).core.out = [] := rfl
@[simp] theorem State.launch_halted (p : Params) (g : Vector (Word p.variant) 7) (mem : Memory) (ic : Input Byte)
    (ii : Input Int) : (State.launch p g mem ic ii).core.halted = false := rfl

end Sys2Proof.Machine
end

