-- ==== Sys2Proof/Laws/Ops.lean ====
section
/-! SUPPORT. One lemma for each shared operation that says everything it can answer. -/

namespace Sys2Proof.Machine

variable {v : Variant} (m : Core v)

/-! ## Widths -/

/-- The width is 16 or 32 (`00_scope.md` R2). -/
theorem width_cases (v : Variant) : v.width = 16 ∨ v.width = 32 := by
  cases v
  · exact .inl rfl
  · exact .inr rfl

theorem two_pow_width (v : Variant) : 2 ^ v.width = 65536 ∨ 2 ^ v.width = 4294967296 := by
  cases v
  · exact .inl rfl
  · exact .inr rfl

/-- `npc` as an address. -/
theorem Core.npc_toNat : m.npc.toNat = (m.pc.toNat + 2) % 2 ^ v.width := by
  cases v <;> rfl

/-- The address of the next instruction is even when the address of this one is (`10_state.md` R18). -/
theorem Core.npc_even (h : m.pc.toNat % 2 = 0) : m.npc.toNat % 2 = 0 := by
  rw [m.npc_toNat]
  rcases two_pow_width v with e | e <;> rw [e] <;> omega

/-! ## Regions and accesses -/

/-- The three regions of `42_load_store.md` R90. -/
theorem regionOf_cases (v : Variant) (addr n : Nat) :
    (regionOf v addr n = .ram ∧ addr + n ≤ v.ramSize) ∨
    (regionOf v addr n = .device ∧ v.ramSize < addr + n ∧ v.outCharAddr ≤ addr ∧ addr < v.inIntAddr + v.wordBytes) ∨
    (regionOf v addr n = .unmapped ∧ v.ramSize < addr + n ∧ (addr < v.outCharAddr ∨ v.inIntAddr + v.wordBytes ≤ addr)) := by
  unfold regionOf
  split
  · exact .inl ⟨rfl, ‹_›⟩
  · split
    · next h => exact .inr (.inl ⟨rfl, by omega, h.1, h.2⟩)
    · exact .inr (.inr ⟨rfl, by omega, by omega⟩)

theorem regionOf_ram {v : Variant} {addr n : Nat} (h : addr + n ≤ v.ramSize) : regionOf v addr n = .ram := by
  simp only [regionOf, h, if_true]

/-- What the fetch answers (`20_memory.md` R33). -/
theorem Core.fetch_cases :
    (m.pc.toNat % 2 = 1 ∧ m.fetch = .error (.misalignedFetch m.pc.toNat)) ∨
    (m.pc.toNat % 2 = 0 ∧ m.pc.toNat + 2 ≤ v.ramSize ∧
      m.fetch = .ok (wordOfBytes (m.mem.read m.pc.toNat) (m.mem.read (m.pc.toNat + 1)))) ∨
    (m.pc.toNat % 2 = 0 ∧ v.ramSize < m.pc.toNat + 2 ∧ m.fetch = .error (.unmappedAccess m.pc.toNat .fetch)) := by
  unfold Core.fetch
  split
  · exact .inl ⟨‹_›, rfl⟩
  · split
    · exact .inr (.inl ⟨by omega, ‹_›, rfl⟩)
    · exact .inr (.inr ⟨by omega, by omega, rfl⟩)

/-- What a byte load answers (`42_load_store.md` R90). -/
theorem Core.loadByte_cases (addr : Nat) :
    (regionOf v addr 1 = .ram ∧ m.loadByte addr = .ok (m.mem.read addr)) ∨
    (regionOf v addr 1 = .device ∧ m.loadByte addr = .error (.deviceAccess addr)) ∨
    (regionOf v addr 1 = .unmapped ∧ m.loadByte addr = .error (.unmappedAccess addr .load)) := by
  unfold Core.loadByte
  cases regionOf v addr 1 <;> simp

/-- What a byte store answers (`42_load_store.md` R90). -/
theorem Core.storeByte_cases (addr : Nat) (x : Byte) :
    (regionOf v addr 1 = .ram ∧ m.storeByte addr x = .ok (m.setMem (m.mem.write addr x))) ∨
    (regionOf v addr 1 = .device ∧ m.storeByte addr x = .error (.deviceAccess addr)) ∨
    (regionOf v addr 1 = .unmapped ∧ m.storeByte addr x = .error (.unmappedAccess addr .store)) := by
  unfold Core.storeByte
  cases regionOf v addr 1 <;> simp

/-- What an input gives (`60_exceptions.md` R173). -/
theorem Input.take_cases {α : Type} (draw : Nat → α) (i : Input α) :
    (i = .finite [] ∧ i.take draw = none) ∨
    (∃ x rest, i = .finite (x :: rest) ∧ i.take draw = some (x, .finite rest)) ∨
    (∃ n, i = .oracle n ∧ i.take draw = some (draw n, .oracle (n + 1))) := by
  rcases i with (_ | ⟨x, rest⟩) | n
  · exact .inl ⟨rfl, rfl⟩
  · exact .inr (.inl ⟨x, rest, rfl, rfl⟩)
  · exact .inr (.inr ⟨n, rfl, rfl⟩)

/-- What a word load from the device range answers: an item of one of the inputs, or a fault (`42_load_store.md` R90). -/
theorem Core.loadDevice_cases (addr : Nat) :
    (∃ c rest, addr = v.inCharAddr ∧ m.inChar.take Config.charInput = some (c, rest) ∧
      m.loadDevice addr = .ok (zextImm v c, m.setInChar rest)) ∨
    (∃ n rest, addr = v.inIntAddr ∧ m.inInt.take Config.intInput = some (n, rest) ∧
      m.loadDevice addr = .ok (BitVec.ofInt v.width n, m.setInInt rest)) ∨
    ((addr = v.inCharAddr ∨ addr = v.inIntAddr) ∧ m.loadDevice addr = .error (.inputExhausted addr)) ∨
    (addr ≠ v.inCharAddr ∧ addr ≠ v.inIntAddr ∧ m.loadDevice addr = .error (.deviceAccess addr)) := by
  unfold Core.loadDevice
  split
  · next h =>
    unfold Core.takeChar
    split
    · exact .inr (.inr (.inl ⟨.inl h, by rw [h]⟩))
    · next c rest e => exact .inl ⟨c, rest, h, e, rfl⟩
  · split
    · next h =>
      unfold Core.takeInt
      split
      · exact .inr (.inr (.inl ⟨.inr h, by rw [h]⟩))
      · next n rest e => exact .inr (.inl ⟨n, rest, h, e, rfl⟩)
    · exact .inr (.inr (.inr ⟨‹_›, ‹_›, rfl⟩))

/-- What a word store to the device range answers: an event at one of the outputs, or a fault (`42_load_store.md` R90). -/
theorem Core.storeDevice_cases (addr : Nat) (y : Word v) :
    (addr = v.outCharAddr ∧ m.storeDevice addr y = .ok (m.emit .char y)) ∨
    (addr = v.outIntAddr ∧ m.storeDevice addr y = .ok (m.emit .int y)) ∨
    (addr ≠ v.outCharAddr ∧ addr ≠ v.outIntAddr ∧ m.storeDevice addr y = .error (.deviceAccess addr)) := by
  unfold Core.storeDevice
  split
  · exact .inl ⟨‹_›, rfl⟩
  · split
    · exact .inr (.inl ⟨‹_›, rfl⟩)
    · exact .inr (.inr ⟨‹_›, ‹_›, rfl⟩)

/-- What a word load answers, in the order of its checks (`42_load_store.md` R90). -/
theorem Core.loadWord_cases (addr : Nat) :
    (addr % v.wordBytes ≠ 0 ∧ m.loadWord addr = .error (.misalignedAccess addr)) ∨
    (addr % v.wordBytes = 0 ∧ regionOf v addr v.wordBytes = .ram ∧ m.loadWord addr = .ok (m.mem.readWord v addr, m)) ∨
    (addr % v.wordBytes = 0 ∧ regionOf v addr v.wordBytes = .device ∧ m.loadWord addr = m.loadDevice addr) ∨
    (addr % v.wordBytes = 0 ∧ regionOf v addr v.wordBytes = .unmapped ∧
      m.loadWord addr = .error (.unmappedAccess addr .load)) := by
  unfold Core.loadWord
  by_cases h : addr % v.wordBytes = 0
  · cases regionOf v addr v.wordBytes <;> simp [h]
  · simp [h]

/-- What a word store answers, in the order of its checks (`42_load_store.md` R90). -/
theorem Core.storeWord_cases (addr : Nat) (y : Word v) :
    (addr % v.wordBytes ≠ 0 ∧ m.storeWord addr y = .error (.misalignedAccess addr)) ∨
    (addr % v.wordBytes = 0 ∧ regionOf v addr v.wordBytes = .ram ∧
      m.storeWord addr y = .ok (m.setMem (m.mem.writeWord addr y))) ∨
    (addr % v.wordBytes = 0 ∧ regionOf v addr v.wordBytes = .device ∧ m.storeWord addr y = m.storeDevice addr y) ∨
    (addr % v.wordBytes = 0 ∧ regionOf v addr v.wordBytes = .unmapped ∧
      m.storeWord addr y = .error (.unmappedAccess addr .store)) := by
  unfold Core.storeWord
  by_cases h : addr % v.wordBytes = 0
  · cases regionOf v addr v.wordBytes <;> simp [h]
  · simp [h]

/-- What a branch answers (`43_branch.md` R95, R99). -/
theorem Core.branch_cases (taken : Bool) (target : Word v) :
    (taken = false ∧ m.branch taken target = .ok m.advance) ∨
    (taken = true ∧ target.toNat % 2 = 0 ∧ m.branch taken target = .ok (m.jump target)) ∨
    (taken = true ∧ target.toNat % 2 = 1 ∧ m.branch taken target = .error (.misalignedTarget target.toNat)) := by
  have odd : target.getLsbD 0 = decide (target.toNat % 2 = 1) := by
    simp [BitVec.getLsbD, Nat.testBit_zero]
  unfold Core.branch
  cases taken
  · exact .inl ⟨rfl, rfl⟩
  · by_cases h : target.toNat % 2 = 1
    · exact .inr (.inr ⟨rfl, h, by simp [odd, h]⟩)
    · exact .inr (.inl ⟨rfl, by omega, by simp [odd, h]⟩)

/-- A computation always completes (`40_computation.md` R60). -/
theorem Core.compute_ok (rst : Reg) (y : Word v) : m.compute rst y = .ok (m.setReg rst y).advance := rfl

/-- One step, said once: a halted machine refuses; a fetch that faults stops; a word fetched is executed if it decodes
and is reserved if it does not (`00_scope.md` R8, `60_exceptions.md` R164). -/
theorem step_cases (s : State) :
    (s.core.halted = true ∧ step s = .refused .stepAfterHalt) ∨
    (s.core.halted = false ∧ ∃ r, s.core.fetch = .error r ∧ step s = .fault r) ∨
    (s.core.halted = false ∧ ∃ w i, s.core.fetch = .ok w ∧ decode s.params.policy w = .ok i ∧ step s = exec i s) ∨
    (s.core.halted = false ∧ ∃ w e, s.core.fetch = .ok w ∧ decode s.params.policy w = .error e ∧
      step s = .fault (.reservedInstruction w)) := by
  unfold step
  cases hh : s.core.halted
  · cases hf : s.core.fetch with
    | error r => exact .inr (.inl ⟨rfl, r, rfl, by simp⟩)
    | ok w =>
      cases hd : decode s.params.policy w with
      | ok i => exact .inr (.inr (.inl ⟨rfl, w, i, rfl, hd, by simp [hd]⟩))
      | error e => exact .inr (.inr (.inr ⟨rfl, w, e, rfl, hd, by simp [hd]⟩))
  · exact .inl ⟨rfl, by simp⟩

end Sys2Proof.Machine
end

