-- ==== Sys2Proof/Laws/Exec.lean ====
section
/-! SUPPORT. What an instruction and a step can do, said once: a proof about every instruction takes these cases and
unfolds no meaning. -/

namespace Sys2Proof.Machine

/-- Everything an instruction that answers a next state can have done. -/
inductive Effect (s : State) : Instr → State → Prop where
  /-- A computation, a shift, or a load from RAM: one register is written (`40_computation.md` R60). -/
  | result {i : Instr} (r : Reg) (y : Word s.params.variant) (written : i.destination = [r]) (store : i.isStore = false)
      (branch : i.isBranch = false) (notHcf : i ≠ .hcf) : Effect s i ⟨s.params, (s.core.setReg r y).advance⟩
  /-- A word load from `IN_CHAR` (`60_exceptions.md` R173). -/
  | character (r b : Reg) (y : Word s.params.variant) (left : Input Byte) :
      Effect s (.ldw r b) ⟨s.params, ((s.core.setInChar left).setReg r y).advance⟩
  /-- A word load from `IN_INT` (`60_exceptions.md` R174). -/
  | integer (r b : Reg) (y : Word s.params.variant) (left : Input Int) :
      Effect s (.ldw r b) ⟨s.params, ((s.core.setInInt left).setReg r y).advance⟩
  /-- A byte store to RAM (`42_load_store.md` R87). -/
  | byteStore (a b : Reg) (inRam : s.core.dataAddress b + 1 ≤ s.params.variant.ramSize) :
      Effect s (.stb a b)
        ⟨s.params, (s.core.setMem (s.core.mem.write (s.core.dataAddress b) (lowByte (s.core.reg a)))).advance⟩
  /-- A word store to RAM (`42_load_store.md` R89). -/
  | wordStore (a b : Reg) (inRam : s.core.dataAddress b + s.params.variant.wordBytes ≤ s.params.variant.ramSize) :
      Effect s (.stw a b) ⟨s.params, (s.core.setMem (s.core.mem.writeWord (s.core.dataAddress b) (s.core.reg a))).advance⟩
  /-- A word store to an output register (`60_exceptions.md` R171, R172). -/
  | output (a b : Reg) (port : OutPort) : Effect s (.stw a b) ⟨s.params, (s.core.emit port (s.core.reg a)).advance⟩
  /-- A branch, taken to an even target or not taken (`43_branch.md` R95, R99). -/
  | jump {i : Instr} (target : Word s.params.variant) (branch : i.isBranch = true)
      (even : target.toNat % 2 = 0 ∨ target = s.core.npc) : Effect s i ⟨s.params, s.core.jump target⟩
  /-- HCF (`44_hcf.md` R111). -/
  | halt : Effect s .hcf ⟨s.params, s.core.halt⟩

/-- A branch that answers a next state has only moved the program counter. -/
theorem branch_effect {s t : State} {i : Instr} (hi : i.isBranch = true) (taken : Core s.params.variant → Bool)
    (target : Core s.params.variant → Word s.params.variant)
    (h : (s.perform fun m => m.branch (taken m) (target m)) = .next t) : Effect s i t := by
  obtain ⟨m, e, rfl⟩ := State.perform_next h
  rcases s.core.branch_cases (taken s.core) (target s.core) with ⟨-, h2⟩ | ⟨-, even, h2⟩ | ⟨-, -, h2⟩ <;> rw [h2] at e <;> cases e
  · exact .jump _ hi (.inr rfl)
  · exact .jump _ hi (.inl even)

/-- An instruction that answers a next state has done one of these. -/
theorem exec_effect {i : Instr} {s t : State} (h : exec i s = .next t) : Effect s i t := by
  cases i
  case hcf =>
    simp only [exec, execHcf] at h
    obtain ⟨m, e, rfl⟩ := State.perform_next h
    split at e <;> cases e
    exact .halt
  case bezR a b => exact branch_effect rfl _ _ (by simpa only [exec, execBezR] using h)
  case bezI a b => exact branch_effect rfl _ _ (by simpa only [exec, execBezI] using h)
  case bnzR a b => exact branch_effect rfl _ _ (by simpa only [exec, execBnzR] using h)
  case bnzI a b => exact branch_effect rfl _ _ (by simpa only [exec, execBnzI] using h)
  case stb a b =>
    simp only [exec, execStb] at h
    obtain ⟨m, e, rfl⟩ := State.perform_next h
    rcases s.core.storeByte_cases (s.core.dataAddress b) (lowByte (s.core.reg a)) with ⟨h1, h2⟩ | ⟨-, h2⟩ | ⟨-, h2⟩ <;>
      rw [h2] at e <;> cases e
    refine .byteStore a b ?_
    rcases regionOf_cases s.params.variant (s.core.dataAddress b) 1 with h | h | h <;> simp [h1] at h
    omega
  case stw a b =>
    simp only [exec, execStw] at h
    obtain ⟨m, e, rfl⟩ := State.perform_next h
    rcases s.core.storeWord_cases (s.core.dataAddress b) (s.core.reg a) with ⟨-, h2⟩ | ⟨-, h1, h2⟩ | ⟨-, -, h2⟩ | ⟨-, -, h2⟩ <;>
      rw [h2] at e
    · cases e
    · cases e
      refine .wordStore a b ?_
      rcases regionOf_cases s.params.variant (s.core.dataAddress b) s.params.variant.wordBytes with h | h | h <;>
        simp [h1] at h
      omega
    · rcases s.core.storeDevice_cases (s.core.dataAddress b) (s.core.reg a) with ⟨-, h2⟩ | ⟨-, h2⟩ | ⟨-, -, h2⟩ <;>
        rw [h2] at e <;> cases e
      · exact .output a b _
      · exact .output a b _
    · cases e
  case ldb a b =>
    simp only [exec, execLdb] at h
    obtain ⟨m, e, rfl⟩ := State.perform_next h
    rcases s.core.loadByte_cases (s.core.dataAddress b) with ⟨-, h2⟩ | ⟨-, h2⟩ | ⟨-, h2⟩ <;> rw [h2] at e <;> cases e
    exact .result a _ rfl rfl rfl (by simp)
  case ldw a b =>
    simp only [exec, execLdw] at h
    obtain ⟨m, e, rfl⟩ := State.perform_next h
    rcases s.core.loadWord_cases (s.core.dataAddress b) with ⟨-, h2⟩ | ⟨-, -, h2⟩ | ⟨-, -, h2⟩ | ⟨-, -, h2⟩ <;> rw [h2] at e
    · cases e
    · cases e
      exact .result a _ rfl rfl rfl (by simp)
    · rcases s.core.loadDevice_cases (s.core.dataAddress b) with ⟨_, _, -, -, h2⟩ | ⟨_, _, -, -, h2⟩ | ⟨-, h2⟩ | ⟨-, -, h2⟩ <;>
        rw [h2] at e <;> cases e
      · exact .character a b _ _
      · exact .integer a b _ _
    · cases e
  all_goals
    injection h with h
    subst h
    exact .result _ _ rfl rfl rfl (by simp)

/-- A step that answers a next state has run an instruction. -/
theorem step_effect {s t : State} (h : step s = .next t) : ∃ i, exec i s = .next t ∧ Effect s i t := by
  rcases step_cases s with ⟨-, e⟩ | ⟨-, r, -, e⟩ | ⟨-, w, i, -, -, e⟩ | ⟨-, w, i, -, -, e⟩ <;> rw [e] at h
  · cases h
  · cases h
  · exact ⟨i, h, exec_effect h⟩
  · cases h

/-- Every instruction answers a next state or a fault: `exec` refuses nothing. -/
theorem exec_not_refused (i : Instr) (s : State) (r : Refusal) : exec i s ≠ .refused r := by
  have key : ∀ f, s.perform f ≠ .refused r := by
    intro f h
    rcases s.perform_cases f with ⟨_, -, e⟩ | ⟨_, -, e⟩ <;> rw [e] at h <;> cases h
  cases i <;> simp only [exec, execAndR, execAndI, execOrR, execOrI, execXorR, execXorI, execSltR, execSltI, execSltuR,
    execSltuI, execAddR, execAddI, execSubR, execSubI, execLdr, execLdc, execLsr, execAsr, execLdb, execStb,
    execLdw, execStw, execBezR, execBezI, execBnzR, execBnzI, execHcf] <;> exact key _

/-- A computation answers its next state: the result in the destination, and everything else as it was
(`40_computation.md` R60). -/
theorem completes_of_result {s : State} {i : Instr} {rst : Reg} {P : State → Prop} (y : Word s.params.variant)
    (h : exec i s = .next ⟨s.params, (s.core.setReg rst y).advance⟩)
    (hp : P ⟨s.params, (s.core.setReg rst y).advance⟩) : s.completes i [rst] P := by
  refine ⟨_, h, ?_, ?_, fun _ => rfl, ⟨rfl, rfl, rfl, rfl, rfl⟩, hp⟩
  · rw [State.npcNat_eq]; rfl
  · intro r hr
    simp only [State.regNat_mk, Core.advance_reg]
    rw [Core.setReg_reg_other _ _ (by simpa using hr)]; rfl

end Sys2Proof.Machine
end

