-- ==== Sys2Proof/Laws/Decode.lean ====
section
/-! SUPPORT. The fields of the words the encoder writes (`30_encoding.md` R46, R47): one lemma per field and format. -/

namespace Sys2Proof

/-- A slice of an append that lies in the low part. -/
theorem extract_append_low {a b : Nat} (x : BitVec a) (y : BitVec b) (lo n : Nat) (h : lo + n ≤ b) :
    (x ++ y).extractLsb' lo n = y.extractLsb' lo n := by
  ext i hi
  simp only [BitVec.getElem_extractLsb', BitVec.getLsbD_append]
  simp [show lo + i < b by omega]

/-- A slice of an append that lies in the high part. -/
theorem extract_append_high {a b : Nat} (x : BitVec a) (y : BitVec b) (lo n : Nat) (h : b ≤ lo) :
    (x ++ y).extractLsb' lo n = x.extractLsb' (lo - b) n := by
  ext i hi
  simp only [BitVec.getElem_extractLsb', BitVec.getLsbD_append]
  simp [show ¬ lo + i < b by omega, show lo + i - b = lo - b + i by omega]

/-- The whole of a bit vector as a slice. -/
theorem extract_whole {a : Nat} (x : BitVec a) : x.extractLsb' 0 a = x := by
  ext i hi
  simp

variable (op : BitVec 4) (rst rsa rsb : Reg) (op2 : BitVec 2) (k : Byte)

@[simp] theorem opcodeField_formatR : opcodeField (formatR op rst rsa rsb op2) = op := by
  unfold opcodeField formatR
  iterate 5 rw [extract_append_high _ _ _ _ (by omega)]
  exact extract_whole op

@[simp] theorem immField_formatR : immField (formatR op rst rsa rsb op2) = 0#1 := by
  unfold immField formatR
  iterate 4 rw [extract_append_high _ _ _ _ (by omega)]
  rw [extract_append_low _ _ _ _ (by omega)]
  exact extract_whole _

@[simp] theorem rstField_formatR : rstField (formatR op rst rsa rsb op2) = rst := by
  unfold rstField formatR
  iterate 3 rw [extract_append_high _ _ _ _ (by omega)]
  rw [extract_append_low _ _ _ _ (by omega), extract_whole]

@[simp] theorem rsaField_formatR : rsaField (formatR op rst rsa rsb op2) = rsa := by
  unfold rsaField formatR
  iterate 2 rw [extract_append_high _ _ _ _ (by omega)]
  rw [extract_append_low _ _ _ _ (by omega), extract_whole]

@[simp] theorem rsbField_formatR : rsbField (formatR op rst rsa rsb op2) = rsb := by
  unfold rsbField formatR
  rw [extract_append_high _ _ _ _ (by omega), extract_append_low _ _ _ _ (by omega), extract_whole]

@[simp] theorem op2Field_formatR : op2Field (formatR op rst rsa rsb op2) = op2 := by
  unfold op2Field formatR
  rw [extract_append_low _ _ _ _ (by omega), extract_whole]

@[simp] theorem opcodeField_formatI : opcodeField (formatI op rst k) = op := by
  unfold opcodeField formatI
  iterate 3 rw [extract_append_high _ _ _ _ (by omega)]
  exact extract_whole op

@[simp] theorem immField_formatI : immField (formatI op rst k) = 1#1 := by
  unfold immField formatI
  iterate 2 rw [extract_append_high _ _ _ _ (by omega)]
  rw [extract_append_low _ _ _ _ (by omega)]
  exact extract_whole _

@[simp] theorem rstField_formatI : rstField (formatI op rst k) = rst := by
  unfold rstField formatI
  rw [extract_append_high _ _ _ _ (by omega), extract_append_low _ _ _ _ (by omega), extract_whole]

@[simp] theorem immediateField_formatI : immediateField (formatI op rst k) = k := by
  unfold immediateField formatI
  rw [extract_append_low _ _ _ _ (by omega), extract_whole]

/-! Every word is the one of its fields. -/

/-- Two adjacent slices are one. -/
theorem append_slices {n : Nat} (w : BitVec n) (lo a b : Nat) :
    w.extractLsb' (lo + b) a ++ w.extractLsb' lo b = w.extractLsb' lo (a + b) := by
  ext i hi
  simp only [BitVec.getElem_append, BitVec.getElem_extractLsb']
  split
  · rfl
  · congr 1; omega

/-- A word with `Imm` = 0 is the word of format R of its fields (`30_encoding.md` R46). -/
theorem formatR_of_fields (w : InstrWord) (h : immField w = 0#1) :
    formatR (opcodeField w) (rstField w) (rsaField w) (rsbField w) (op2Field w) = w := by
  unfold formatR
  rw [← h]
  simp only [opcodeField, immField, rstField, rsaField, rsbField, op2Field, BitVec.ofFin_toFin]
  rw [append_slices w 11 4 1, append_slices w 8 5 3, append_slices w 5 8 3, append_slices w 2 11 3, append_slices w 0 14 2]
  exact extract_whole w

/-- A word with `Imm` = 1 is the word of format I of its fields (`30_encoding.md` R47). -/
theorem formatI_of_fields (w : InstrWord) (h : immField w = 1#1) :
    formatI (opcodeField w) (rstField w) (immediateField w) = w := by
  unfold formatI
  rw [← h]
  simp only [opcodeField, immField, rstField, immediateField, BitVec.ofFin_toFin]
  rw [append_slices w 11 4 1, append_slices w 8 5 3, append_slices w 0 8 8]
  exact extract_whole w

/-- A word of format R with another `Op2` than 11 or another `Opcode` than 0000 is not HCF's (`30_encoding.md` R54). -/
theorem formatR_ne_hcfWord {op : BitVec 4} {op2 : BitVec 2} (rst rsa rsb : Reg) (h : op2 ≠ 0b11#2 ∨ op ≠ 0b0000#4) :
    formatR op rst rsa rsb op2 ≠ hcfWord := by
  intro e
  rcases h with h | h
  · exact h ((op2Field_formatR op rst rsa rsb op2).symm.trans (congrArg op2Field e))
  · exact h ((opcodeField_formatR op rst rsa rsb op2).symm.trans (congrArg opcodeField e))

/-- A word and its two bytes in memory (`20_memory.md` R27). -/
@[simp] theorem wordOfBytes_bytesOfWord (w : InstrWord) :
    wordOfBytes (w.extractLsb' 8 8) (w.extractLsb' 0 8) = w := by
  apply BitVec.eq_of_getLsbD_eq
  intro i hi
  refine (BitVec.getLsbD_append (x := w.extractLsb' 8 8) (y := w.extractLsb' 0 8)).trans ?_
  by_cases h : i < 8
  · simp [h]
  · simp [h, show i - 8 < 8 by omega, show 8 + (i - 8) = i by omega]

end Sys2Proof
end

