-- ==== Sys2Proof/Laws/Operands.lean ====
section
/-! SUPPORT. One lemma for each operand form of `Operands.lean`: its value as a number, in both variants. -/

namespace Sys2Proof.Machine

/-- The modulus of a word in both variants, as a natural number and as an integer. -/
theorem modulus_cases (v : Variant) :
    (2 ^ v.width = 65536 ∧ (2 : Int) ^ v.width = 65536 ∧ 2 ^ (v.width - 8) = 256) ∨
    (2 ^ v.width = 4294967296 ∧ (2 : Int) ^ v.width = 4294967296 ∧ 2 ^ (v.width - 8) = 16777216) := by
  cases v
  · exact .inl ⟨rfl, rfl, rfl⟩
  · exact .inr ⟨rfl, rfl, rfl⟩

/-- A zero-extended immediate is the number of its eight bits (`30_encoding.md` R48). -/
@[simp] theorem zextImm_toNat (v : Variant) (k : Byte) : (zextImm v k).toNat = k.toNat := by
  have := k.isLt
  rw [zextImm, BitVec.toNat_setWidth]
  rcases two_pow_width v with e | e <;> rw [e] <;> omega

/-- A sign-extended immediate is a number from -128 to 127 (`30_encoding.md` R48). -/
@[simp] theorem sextImm_toInt (v : Variant) (k : Byte) : (sextImm v k).toInt = k.toInt := by
  rw [sextImm, BitVec.toInt_signExtend_of_le]
  cases v <;> decide

/-- A sign-extended immediate as an unsigned number: its residue modulo `2^W` (`00_scope.md` §5.1). -/
theorem sextImm_toNat (v : Variant) (k : Byte) : ((sextImm v k).toNat : Int) = k.toInt % 2 ^ v.width := by
  have := (sextImm v k).isLt
  rw [← sextImm_toInt v k, BitVec.toInt_eq_toNat_cond]
  push_cast
  rcases modulus_cases v with ⟨e, e', -⟩ | ⟨e, e', -⟩ <;> rw [e] at this ⊢ <;> rw [e'] <;> split <;> omega

/-- The low byte of a word is its residue modulo 256 (`42_load_store.md` R87). -/
@[simp] theorem lowByte_toNat {v : Variant} (x : Word v) : (lowByte x).toNat = x.toNat % 256 := by
  simp [lowByte]

/-- A condition is stored as 1 or 0 (`40_computation.md` R67, R69). -/
@[simp] theorem conditionWord_toNat (v : Variant) (b : Bool) : (conditionWord v b).toNat = if b then 1 else 0 := by
  cases v <;> cases b <;> rfl

/-- LDC's value as a number (`40_computation.md` R76). -/
theorem shiftInByte_toNat {v : Variant} (x : Word v) (k : Byte) :
    (shiftInByte x k).toNat = (256 * x.toNat + k.toNat) % 2 ^ v.width := by
  have hk := k.isLt
  have hx : x.toNat <<< 8 % 2 ^ v.width = 2 ^ 8 * (x.toNat % 2 ^ (v.width - 8)) := by
    rw [Nat.shiftLeft_eq]
    rcases modulus_cases v with ⟨e, -, e'⟩ | ⟨e, -, e'⟩ <;> rw [e, e'] <;> omega
  rw [shiftInByte, BitVec.toNat_or, BitVec.toNat_shiftLeft, zextImm_toNat, hx, ← Nat.two_pow_add_eq_or_of_lt hk]
  rcases modulus_cases v with ⟨e, -, e'⟩ | ⟨e, -, e'⟩ <;> rw [e, e'] <;> omega

/-- LSR's value: the unsigned number halved (`41_shift.md` R81). -/
@[simp] theorem shiftRightLogical_toNat {v : Variant} (x : Word v) : (shiftRightLogical x).toNat = x.toNat / 2 := by
  simp [shiftRightLogical, Nat.shiftRight_one]

/-- ASR's value: the signed number halved, rounding toward minus infinity (`41_shift.md` R82). -/
@[simp] theorem shiftRightArithmetic_toInt {v : Variant} (x : Word v) : (shiftRightArithmetic x).toInt = x.toInt / 2 := by
  rw [shiftRightArithmetic, BitVec.toInt_sshiftRight]
  simp [Int.shiftRight_eq_div_pow]

/-- The bytes of a word: byte `i` is the slice of weight `256 ^ (WB - 1 - i)` (`20_memory.md` R29). -/
theorem bytesOfRegister_getElem {v : Variant} (x : Word v) (i : Nat) (h : i < (bytesOfRegister x).length) :
    (bytesOfRegister x)[i] = x.extractLsb' (8 * (v.wordBytes - 1 - i)) 8 := by
  cases v
  · have : i < 2 := h
    interval_cases i <;> rfl
  · have : i < 4 := h
    interval_cases i <;> rfl

/-- A slice of eight bits as a number. -/
theorem extract_byte_toNat {n : Nat} (x : BitVec n) (j : Nat) : (x.extractLsb' (8 * j) 8).toNat = x.toNat / 256 ^ j % 256 := by
  rw [BitVec.extractLsb'_toNat, Nat.shiftRight_eq_div_pow, Nat.pow_mul]

/-- The target of a relative branch as a number (`43_branch.md` R98). -/
theorem Core.relativeTarget_toNat {v : Variant} (m : Core v) (k : Byte) :
    ((m.relativeTarget k).toNat : Int) = ((m.pc.toNat : Int) + 2 + k.toInt) % 2 ^ v.width := by
  have h := sextImm_toNat v k
  rw [Core.relativeTarget, BitVec.toNat_add, m.npc_toNat]
  rcases modulus_cases v with ⟨e, e', -⟩ | ⟨e, e', -⟩ <;> rw [e] <;> rw [e'] at h ⊢ <;> omega

/-! Words in memory. -/

/-- A value with a byte put below it. -/
theorem append_byte_toNat {n : Nat} (x : BitVec n) (b : Byte) : (x ++ b).toNat = 256 * x.toNat + b.toNat := by
  rw [BitVec.toNat_append, Nat.shiftLeft_eq, Nat.mul_comm, ← Nat.two_pow_add_eq_or_of_lt b.isLt]

/-- A word read from memory has the byte at its lowest address in its most significant place (`20_memory.md` R28). -/
theorem State.readWord_toNat (s : State) (a : Nat) : (s.core.mem.readWord s.params.variant a).toNat = s.wordAt a := by
  obtain ⟨⟨v, p⟩, c⟩ := s
  cases v
  · show (c.mem.read a ++ c.mem.read (a + 1) : BitVec 16).toNat = bigEndian [c.mem.read a, c.mem.read (a + 1)]
    rw [append_byte_toNat]
    simp [bigEndian]
  · show (c.mem.read a ++ c.mem.read (a + 1) ++ c.mem.read (a + 2) ++ c.mem.read (a + 3) : BitVec 32).toNat =
      bigEndian [c.mem.read a, c.mem.read (a + 1), c.mem.read (a + 2), c.mem.read (a + 3)]
    rw [append_byte_toNat, append_byte_toNat, append_byte_toNat]
    simp [bigEndian]

/-- A byte of a word just written (`20_memory.md` R29). -/
theorem Memory.read_writeWord_at {v : Variant} (m : Memory) (a : Nat) (x : Word v) (i : Nat) (h : i < v.wordBytes) :
    (m.writeWord a x).read (a + i) = x.extractLsb' (8 * (v.wordBytes - 1 - i)) 8 := by
  have hi : i < (bytesOfRegister x).length := by simpa using h
  rw [Memory.writeWord, Memory.read_writeBytes_at m a _ i hi, bytesOfRegister_getElem x i hi]

/-- A byte of a word read is the byte at its address (`20_memory.md` R28). -/
theorem Memory.readWord_byte {v : Variant} (m : Memory) (a i : Nat) (h : i < v.wordBytes) :
    (m.readWord v a).extractLsb' (8 * (v.wordBytes - 1 - i)) 8 = m.read (a + i) := by
  cases v
  · have h : i < 2 := h
    interval_cases i
    · exact (extract_append_high (m.read a) (m.read (a + 1)) 8 8 (by omega)).trans (extract_whole _)
    · exact (extract_append_low (m.read a) (m.read (a + 1)) 0 8 (by omega)).trans (extract_whole _)
  · have h : i < 4 := h
    have top := extract_append_high (m.read a ++ m.read (a + 1) ++ m.read (a + 2)) (m.read (a + 3))
    have mid := extract_append_high (m.read a ++ m.read (a + 1)) (m.read (a + 2))
    interval_cases i
    · exact (top 24 8 (by omega)).trans <| (mid 16 8 (by omega)).trans <|
        (extract_append_high (m.read a) (m.read (a + 1)) 8 8 (by omega)).trans (extract_whole _)
    · exact (top 16 8 (by omega)).trans <| (mid 8 8 (by omega)).trans <|
        (extract_append_low (m.read a) (m.read (a + 1)) 0 8 (by omega)).trans (extract_whole _)
    · exact (top 8 8 (by omega)).trans <|
        (extract_append_low (m.read a ++ m.read (a + 1)) (m.read (a + 2)) 0 8 (by omega)).trans (extract_whole _)
    · exact (extract_append_low (m.read a ++ m.read (a + 1) ++ m.read (a + 2)) (m.read (a + 3)) 0 8 (by omega)).trans
        (extract_whole _)

/-- Two words with the same bytes are the same. -/
theorem word_eq_of_bytes {v : Variant} {x y : Word v}
    (h : ∀ i < v.wordBytes, x.extractLsb' (8 * (v.wordBytes - 1 - i)) 8 = y.extractLsb' (8 * (v.wordBytes - 1 - i)) 8) :
    x = y := by
  apply BitVec.eq_of_getLsbD_eq
  intro j hj
  have hw : v.width = 8 * v.wordBytes := by cases v <;> rfl
  have := congrArg (·.getLsbD (j % 8)) (h (v.wordBytes - 1 - j / 8) (by omega))
  simp only [BitVec.getLsbD_extractLsb'] at this
  rwa [show 8 * (v.wordBytes - 1 - (v.wordBytes - 1 - j / 8)) + j % 8 = j by omega,
    decide_eq_true (show j % 8 < 8 by omega), Bool.true_and, Bool.true_and] at this

/-- A word read back where it was written is the word written (`20_memory.md` R36). -/
@[simp] theorem Memory.readWord_writeWord {v : Variant} (m : Memory) (a : Nat) (x : Word v) :
    (m.writeWord a x).readWord v a = x :=
  word_eq_of_bytes fun i h => by rw [Memory.readWord_byte _ _ _ h, Memory.read_writeWord_at _ _ _ _ h]

end Sys2Proof.Machine
end

