-- ==== Sys2Proof/Laws/PerInstr.lean ====
section
/-! SUPPORT. The per-instruction family `RowOfEncoding`: the word the encoder writes is a word of the instruction's row
in the table of `30_encoding.md` R50, whatever its operands. -/

namespace Sys2Proof.Laws

/-- The word of an instruction is of its row: `(I and mask) = match` (`30_encoding.md` R50). -/
def RowOfEncoding.Statement (i : Instr) : Prop := i.row.admits (encode i) = true

/-- A word of format R under a mask that covers `Opcode`, `Imm`, `Op2` and some register fields. -/
theorem mask_formatR (op : BitVec 4) (rst rsa rsb : Reg) (op2 : BitVec 2) (mt ma mb : BitVec 3) :
    formatR op rst rsa rsb op2 &&& (0xF#4 ++ 1#1 ++ mt ++ ma ++ mb ++ 3#2 : BitVec 16) =
      (op ++ 0#1 ++ ((BitVec.ofFin rst : BitVec 3) &&& mt) ++ ((BitVec.ofFin rsa : BitVec 3) &&& ma) ++
        ((BitVec.ofFin rsb : BitVec 3) &&& mb) ++ op2 : BitVec 16) := by
  have h4 : op &&& 0xF#4 = op := by revert op; decide
  have h2 : op2 &&& 3#2 = op2 := by revert op2; decide
  unfold formatR
  rw [BitVec.and_append, BitVec.and_append, BitVec.and_append, BitVec.and_append, BitVec.and_append, h4, h2]
  rfl

/-- A word of format I under the mask that covers `Opcode` and `Imm`. -/
theorem mask_formatI (op : BitVec 4) (rst : Reg) (k : Byte) :
    formatI op rst k &&& 0xF800#16 = (op ++ 1#1 ++ 0#3 ++ 0#8 : BitVec 16) := by
  have h4 : op &&& 0xF#4 = op := by revert op; decide
  have e : (0xF800#16 : BitVec 16) = (0xF#4 ++ 1#1 ++ 0#3 ++ 0#8 : BitVec 16) := by decide
  rw [e]
  unfold formatI
  rw [BitVec.and_append, BitVec.and_append, BitVec.and_append, h4, BitVec.and_zero, BitVec.and_zero]
  rfl

/-- A row of format R admits a word whose masked register fields are 000. -/
theorem formatR_admits {op : BitVec 4} {rst rsa rsb : Reg} {op2 : BitVec 2} (mt ma mb : BitVec 3) {row : OpcodeRow}
    (hmask : row.mask = (0xF#4 ++ 1#1 ++ mt ++ ma ++ mb ++ 3#2 : BitVec 16))
    (hpattern : row.pattern = (op ++ 0#1 ++ 0#3 ++ 0#3 ++ 0#3 ++ op2 : BitVec 16))
    (ht : (BitVec.ofFin rst : BitVec 3) &&& mt = 0#3) (ha : (BitVec.ofFin rsa : BitVec 3) &&& ma = 0#3)
    (hb : (BitVec.ofFin rsb : BitVec 3) &&& mb = 0#3) : row.admits (formatR op rst rsa rsb op2) = true := by
  unfold OpcodeRow.admits
  rw [hmask, mask_formatR, ht, ha, hb, hpattern]
  simp

/-- A row of format I admits every word with its `Opcode`. -/
theorem formatI_admits {op : BitVec 4} {rst : Reg} {k : Byte} {row : OpcodeRow} (hmask : row.mask = 0xF800#16)
    (hpattern : row.pattern = (op ++ 1#1 ++ 0#3 ++ 0#8 : BitVec 16)) : row.admits (formatI op rst k) = true := by
  unfold OpcodeRow.admits
  rw [hmask, mask_formatI, hpattern]
  simp

theorem RowOfEncoding.andR (rst rsa rsb : Reg) : RowOfEncoding.Statement (.andR rst rsa rsb) :=
  formatR_admits 0#3 0#3 0#3 rfl rfl BitVec.and_zero BitVec.and_zero BitVec.and_zero
theorem RowOfEncoding.andI (rst : Reg) (imm : Byte) : RowOfEncoding.Statement (.andI rst imm) :=
  formatI_admits rfl rfl
theorem RowOfEncoding.orR (rst rsa rsb : Reg) : RowOfEncoding.Statement (.orR rst rsa rsb) :=
  formatR_admits 0#3 0#3 0#3 rfl rfl BitVec.and_zero BitVec.and_zero BitVec.and_zero
theorem RowOfEncoding.orI (rst : Reg) (imm : Byte) : RowOfEncoding.Statement (.orI rst imm) :=
  formatI_admits rfl rfl
theorem RowOfEncoding.xorR (rst rsa rsb : Reg) : RowOfEncoding.Statement (.xorR rst rsa rsb) :=
  formatR_admits 0#3 0#3 0#3 rfl rfl BitVec.and_zero BitVec.and_zero BitVec.and_zero
theorem RowOfEncoding.xorI (rst : Reg) (imm : Byte) : RowOfEncoding.Statement (.xorI rst imm) :=
  formatI_admits rfl rfl
theorem RowOfEncoding.sltR (rst rsa rsb : Reg) : RowOfEncoding.Statement (.sltR rst rsa rsb) :=
  formatR_admits 0#3 0#3 0#3 rfl rfl BitVec.and_zero BitVec.and_zero BitVec.and_zero
theorem RowOfEncoding.sltI (rst : Reg) (imm : Byte) : RowOfEncoding.Statement (.sltI rst imm) :=
  formatI_admits rfl rfl
theorem RowOfEncoding.sltuR (rst rsa rsb : Reg) : RowOfEncoding.Statement (.sltuR rst rsa rsb) :=
  formatR_admits 0#3 0#3 0#3 rfl rfl BitVec.and_zero BitVec.and_zero BitVec.and_zero
theorem RowOfEncoding.sltuI (rst : Reg) (imm : Byte) : RowOfEncoding.Statement (.sltuI rst imm) :=
  formatI_admits rfl rfl
theorem RowOfEncoding.addR (rst rsa rsb : Reg) : RowOfEncoding.Statement (.addR rst rsa rsb) :=
  formatR_admits 0#3 0#3 0#3 rfl rfl BitVec.and_zero BitVec.and_zero BitVec.and_zero
theorem RowOfEncoding.addI (rst : Reg) (imm : Byte) : RowOfEncoding.Statement (.addI rst imm) :=
  formatI_admits rfl rfl
theorem RowOfEncoding.subR (rst rsa rsb : Reg) : RowOfEncoding.Statement (.subR rst rsa rsb) :=
  formatR_admits 0#3 0#3 0#3 rfl rfl BitVec.and_zero BitVec.and_zero BitVec.and_zero
theorem RowOfEncoding.subI (rst : Reg) (imm : Byte) : RowOfEncoding.Statement (.subI rst imm) :=
  formatI_admits rfl rfl
theorem RowOfEncoding.ldr (rst : Reg) (imm : Byte) : RowOfEncoding.Statement (.ldr rst imm) :=
  formatI_admits rfl rfl
theorem RowOfEncoding.ldc (rst : Reg) (imm : Byte) : RowOfEncoding.Statement (.ldc rst imm) :=
  formatI_admits rfl rfl
theorem RowOfEncoding.lsr (rst rsa : Reg) : RowOfEncoding.Statement (.lsr rst rsa) :=
  formatR_admits 0#3 0#3 7#3 rfl rfl BitVec.and_zero BitVec.and_zero rfl
theorem RowOfEncoding.asr (rst rsa : Reg) : RowOfEncoding.Statement (.asr rst rsa) :=
  formatR_admits 0#3 0#3 7#3 rfl rfl BitVec.and_zero BitVec.and_zero rfl
theorem RowOfEncoding.ldb (rst rsb : Reg) : RowOfEncoding.Statement (.ldb rst rsb) :=
  formatR_admits 0#3 7#3 0#3 rfl rfl BitVec.and_zero rfl BitVec.and_zero
theorem RowOfEncoding.stb (rsa rsb : Reg) : RowOfEncoding.Statement (.stb rsa rsb) :=
  formatR_admits 7#3 0#3 0#3 rfl rfl rfl BitVec.and_zero BitVec.and_zero
theorem RowOfEncoding.ldw (rst rsb : Reg) : RowOfEncoding.Statement (.ldw rst rsb) :=
  formatR_admits 0#3 7#3 0#3 rfl rfl BitVec.and_zero rfl BitVec.and_zero
theorem RowOfEncoding.stw (rsa rsb : Reg) : RowOfEncoding.Statement (.stw rsa rsb) :=
  formatR_admits 7#3 0#3 0#3 rfl rfl rfl BitVec.and_zero BitVec.and_zero
theorem RowOfEncoding.bezR (rsa rsb : Reg) : RowOfEncoding.Statement (.bezR rsa rsb) :=
  formatR_admits 7#3 0#3 0#3 rfl rfl rfl BitVec.and_zero BitVec.and_zero
theorem RowOfEncoding.bezI (rst : Reg) (imm : Byte) : RowOfEncoding.Statement (.bezI rst imm) :=
  formatI_admits rfl rfl
theorem RowOfEncoding.bnzR (rsa rsb : Reg) : RowOfEncoding.Statement (.bnzR rsa rsb) :=
  formatR_admits 7#3 0#3 0#3 rfl rfl rfl BitVec.and_zero BitVec.and_zero
theorem RowOfEncoding.bnzI (rst : Reg) (imm : Byte) : RowOfEncoding.Statement (.bnzI rst imm) :=
  formatI_admits rfl rfl
theorem RowOfEncoding.hcf : RowOfEncoding.Statement .hcf := rfl

end Sys2Proof.Laws
end

