-- ==== Sys2Proof/Machine/Pseudo.lean ====
section
/-! DEFINITION. The pseudo-instructions of `45_pseudo_instructions.md` and their expansions into the encoded forms. They
are spellings, no hardware (R113): the machine executes the expansion. -/

namespace Sys2Proof.Machine

/-- The routine of Appendix B that a MUL, a DIV or a REM calls (R138). -/
inductive Routine where
  /-- Multiplication: `mul`. -/
  | mulsi3
  /-- Division: `div`. -/
  | divsi3
  /-- Remainder: `rem`. -/
  | modsi3
deriving DecidableEq, Repr

/-- The label at the entry of a routine, the operand of `ldi sr,…` in its call (R138). -/
def Routine.entry : Routine → String
  | .mulsi3 => "mulsi3"
  | .divsi3 => "divsi3"
  | .modsi3 => "modsi3"

/-- The pseudo-instructions. `α` is what stands for a constant or an address: a number, or a label not yet resolved.
Registers are named in the order of the manual's tables. MUL, DIV and REM (R138) name a routine and place a label, so they
are lines of a program: `Line.call`. -/
inductive Pseudo (α : Type) where
  /-- An encoded form written as it is. -/
  | real (i : Instr)
  /-- R114 to R120. -/
  | nop
  | not (r1 : Reg)
  | neg (r1 : Reg)
  | lsr2 (r1 r2 : Reg)
  | asr2 (r1 r2 : Reg)
  | lsl (r1 r2 : Reg)
  | hcf
  | ldi (r1 : Reg) (const : α)
  /-- R121: two registers, or a register and a label. -/
  | ldb2 (r1 r2 : Reg)
  | ldbAt (r1 : Reg) (addr : α)
  | stb2 (r1 r2 : Reg)
  | stbAt (r1 : Reg) (addr : α)
  | ldw2 (r1 r2 : Reg)
  | ldwAt (r1 : Reg) (addr : α)
  | stw2 (r1 r2 : Reg)
  | stwAt (r1 : Reg) (addr : α)
  /-- R122. With a number for second operand it is format I, an encoded form. -/
  | bez2 (r1 r2 : Reg)
  | bezAt (r1 : Reg) (addr : α)
  | bnz2 (r1 r2 : Reg)
  | bnzAt (r1 : Reg) (addr : α)
  /-- R123 to R125 (`90_conflicts.md` C3). -/
  | lsrm (r1 r2 : Reg)
  | asrm (r1 r2 : Reg)
  | lslm (r1 r2 : Reg)
  /-- R126 to R129. -/
  | seq (r1 r2 r3 : Reg)
  | sne (r1 r2 r3 : Reg)
  | sge (r1 r2 r3 : Reg)
  | sgeu (r1 r2 r3 : Reg)
  /-- R130 to R132. -/
  | beq (r1 r2 : Reg) (addr : α)
  | bne (r1 r2 : Reg) (addr : α)
  | blt (r1 r2 : Reg) (addr : α)
  | bge (r1 r2 : Reg) (addr : α)
  | bltu (r1 r2 : Reg) (addr : α)
  | bgeu (r1 r2 : Reg) (addr : α)
  /-- R133. -/
  | sgt (r1 r2 r3 : Reg)
  | sle (r1 r2 r3 : Reg)
  | sgtu (r1 r2 r3 : Reg)
  | sleu (r1 r2 r3 : Reg)
  /-- R134. -/
  | bgt (r1 r2 : Reg) (addr : α)
  | ble (r1 r2 : Reg) (addr : α)
  | bgtu (r1 r2 : Reg) (addr : α)
  | bleu (r1 r2 : Reg) (addr : α)
  /-- R135 to R137; `raddr` is the address after the branch, a label the programmer places. -/
  | jmp (addr : α)
  | jmpr (r1 : Reg)
  | jal (addr raddr : α)
  | jalr (r1 : Reg) (raddr : α)
  | ret
deriving DecidableEq, Repr

/-- One instruction of an expansion. `ldcByte r i c` is the LDC of byte `i` of the constant `c`, byte 0 the most
significant: the listing's `ldc0`, `ldc1` (R120, `46_assembler_and_simulator.md` R149). -/
inductive Piece (α : Type) where
  | instr (i : Instr)
  | ldcByte (r : Reg) (index : Nat) (const : α)
deriving DecidableEq, Repr

variable {α : Type}

/-- LDI: one LDC for each byte of the word, most significant first, always all of them (R120, D25). -/
def expandLdi (v : Variant) (r : Reg) (c : α) : List (Piece α) :=
  (List.range v.wordBytes).map fun i => .ldcByte r i c

/-- The loop of LSRM, ASRM and LSLM around its one-bit shift: `sub r2,1`, `bnz r2,-6` (R123 to R125). -/
def expandShiftLoop (shift : Instr) (r2 : Reg) : List (Piece α) :=
  [.instr shift, .instr (.subI r2 1#8), .instr (.bnzI r2 (BitVec.ofInt 8 (-6)))]

/-- Push a register as R138 does: `sub sp,WB`, `stw r0,r,sp`. -/
def expandPush (v : Variant) (r : Reg) : List (Piece α) :=
  [.instr (.subI .stackPointer (BitVec.ofNat 8 v.wordBytes)), .instr (.stw r .stackPointer)]

/-- The conditional set of R128 and R129: the comparison, then its complement, `ldr at,1`, `sub r1,at,r1`. -/
def expandComplement (compare : Instr) (r1 : Reg) : List (Piece α) :=
  [.instr compare, .instr (.ldr .temporary 1#8), .instr (.subR r1 .temporary r1)]

/-- The compare-and-branch of R130 to R132: the address into `at`, the comparison into `r1`, the branch on `r1`. -/
def expandBranch (v : Variant) (compare branch : Instr) (addr : α) : List (Piece α) :=
  expandLdi v .temporary addr ++ [.instr compare, .instr branch]

/-- MUL, DIV and REM up to the branch to the routine: push `r2`, `r3` and `lr`, load the return address and the entry of
the routine, branch (R138; `2` is the word size, `42_load_store.md` R91). -/
def expandCall (v : Variant) (r2 r3 : Reg) (entry raddr : α) : List (Piece α) :=
  expandPush v r2 ++ expandPush v r3 ++ expandPush v .link ++ expandLdi v .link raddr ++ expandLdi v .scratch entry ++
    [.instr (.bnzR .stackPointer .scratch)]

/-- MUL, DIV and REM from the return address on: restore `lr`, free three words, move the result from `sr` (R138,
`90_conflicts.md` C4; `6` is three words, `42_load_store.md` R91). -/
def expandReturn (v : Variant) (r1 : Reg) : List (Piece α) :=
  [ .instr (.ldw .link .stackPointer), .instr (.addI .stackPointer (BitVec.ofNat 8 (3 * v.wordBytes))),
    .instr (.andR r1 .scratch .scratch) ]

/-- The expansion of a pseudo-instruction (`45_pseudo_instructions.md` R114 to R137). -/
def Pseudo.expand (v : Variant) : Pseudo α → List (Piece α)
  | .real i => [.instr i]
  | .nop => [.instr (.andR 0 0 0)]
  | .not r1 => [.instr (.xorI r1 (BitVec.ofInt 8 (-1)))]
  | .neg r1 => [.instr (.xorI r1 (BitVec.ofInt 8 (-1))), .instr (.addI r1 1#8)]
  | .lsr2 r1 r2 => [.instr (.lsr r1 r2)]
  | .asr2 r1 r2 => [.instr (.asr r1 r2)]
  | .lsl r1 r2 => [.instr (.addR r1 r2 r2)]
  | .hcf => [.instr .hcf]
  | .ldi r1 c => expandLdi v r1 c
  | .ldb2 r1 r2 => [.instr (.ldb r1 r2)]
  | .ldbAt r1 addr => expandLdi v .temporary addr ++ [.instr (.ldb r1 .temporary)]
  | .stb2 r1 r2 => [.instr (.stb r1 r2)]
  | .stbAt r1 addr => expandLdi v .temporary addr ++ [.instr (.stb r1 .temporary)]
  | .ldw2 r1 r2 => [.instr (.ldw r1 r2)]
  | .ldwAt r1 addr => expandLdi v .temporary addr ++ [.instr (.ldw r1 .temporary)]
  | .stw2 r1 r2 => [.instr (.stw r1 r2)]
  | .stwAt r1 addr => expandLdi v .temporary addr ++ [.instr (.stw r1 .temporary)]
  | .bez2 r1 r2 => [.instr (.bezR r1 r2)]
  | .bezAt r1 addr => expandLdi v .temporary addr ++ [.instr (.bezR r1 .temporary)]
  | .bnz2 r1 r2 => [.instr (.bnzR r1 r2)]
  | .bnzAt r1 addr => expandLdi v .temporary addr ++ [.instr (.bnzR r1 .temporary)]
  | .lsrm r1 r2 => expandShiftLoop (.lsr r1 r1) r2
  | .asrm r1 r2 => expandShiftLoop (.asr r1 r1) r2
  | .lslm r1 r2 => expandShiftLoop (.addR r1 r1 r1) r2
  | .seq r1 r2 r3 => [.instr (.subR r1 r2 r3), .instr (.sltuI r1 1#8)]
  | .sne r1 r2 r3 =>
    [.instr (.subR r1 r2 r3), .instr (.xorR .temporary .temporary .temporary), .instr (.sltuR r1 .temporary r1)]
  | .sge r1 r2 r3 => expandComplement (.sltR r1 r2 r3) r1
  | .sgeu r1 r2 r3 => expandComplement (.sltuR r1 r2 r3) r1
  | .beq r1 r2 addr => expandBranch v (.subR r1 r1 r2) (.bezR r1 .temporary) addr
  | .bne r1 r2 addr => expandBranch v (.subR r1 r1 r2) (.bnzR r1 .temporary) addr
  | .blt r1 r2 addr => expandBranch v (.sltR r1 r1 r2) (.bnzR r1 .temporary) addr
  | .bge r1 r2 addr => expandBranch v (.sltR r1 r1 r2) (.bezR r1 .temporary) addr
  | .bltu r1 r2 addr => expandBranch v (.sltuR r1 r1 r2) (.bnzR r1 .temporary) addr
  | .bgeu r1 r2 addr => expandBranch v (.sltuR r1 r1 r2) (.bezR r1 .temporary) addr
  | .sgt r1 r2 r3 => [.instr (.sltR r1 r3 r2)]
  | .sle r1 r2 r3 => expandComplement (.sltR r1 r3 r2) r1
  | .sgtu r1 r2 r3 => [.instr (.sltuR r1 r3 r2)]
  | .sleu r1 r2 r3 => expandComplement (.sltuR r1 r3 r2) r1
  | .bgt r1 r2 addr => expandBranch v (.sltR r2 r2 r1) (.bnzR r2 .temporary) addr
  | .ble r1 r2 addr => expandBranch v (.sltR r2 r2 r1) (.bezR r2 .temporary) addr
  | .bgtu r1 r2 addr => expandBranch v (.sltuR r2 r2 r1) (.bnzR r2 .temporary) addr
  | .bleu r1 r2 addr => expandBranch v (.sltuR r2 r2 r1) (.bezR r2 .temporary) addr
  | .jmp addr => expandLdi v .temporary addr ++ [.instr (.bnzR .stackPointer .temporary)]
  | .jmpr r1 => [.instr (.bnzR .stackPointer r1)]
  | .jal addr raddr =>
    expandLdi v .temporary addr ++ expandLdi v .link raddr ++ [.instr (.bnzR .stackPointer .temporary)]
  | .jalr r1 raddr => expandLdi v .link raddr ++ [.instr (.bnzR .stackPointer r1)]
  | .ret => [.instr (.bnzR .stackPointer .link)]

/-- The instruction of a piece when its constant has a value: byte `index` of the value modulo `2^W` (R120). -/
def Piece.resolve (v : Variant) (value : α → Int) : Piece α → Instr
  | .instr i => i
  | .ldcByte r index c => .ldc r ((bytesOfRegister (BitVec.ofInt v.width (value c))).getD index 0)

/-- The instructions of a pseudo-instruction whose constants are numbers. -/
def Pseudo.instructions (v : Variant) (p : Pseudo Int) : List Instr := (p.expand v).map (Piece.resolve v id)

/-- Execute instructions one after another, wherever the program counter points: what stepping through them does when
they lie in sequence and none of them is a taken branch or an HCF. -/
def execAll : List Instr → State → Host.Outcome State Fault Refusal
  | [], s => .next s
  | i :: rest, s =>
    match exec i s with
    | .next t => execAll rest t
    | .fault r => .fault r
    | .refused r => .refused r

end Sys2Proof.Machine
end

