-- ==== Sys2Proof/Machine/Assembler.lean ====
section
/-! DEFINITION. The assembler of `46_assembler_and_simulator.md`: the lines of a program (R140 to R145), the three passes
(R146), addresses (R147) and the object code (R148). It is a tool, outside the step: it says which words a program is.
A line that breaks a stated rule, or an undefined label, gives no object code (R150). DESIGN CHOICE: which text is an
error is not in the source (R142, R150, `91_not_in_source.md` N16, `93_implementation_defined.md` U20); log 16 names the
choice at every open point. -/

namespace Sys2Proof.Machine

/-- A constant of a source line: a number, or the name of a label (R142). -/
inductive Value where
  | number (n : Int)
  | label (name : String)
deriving DecidableEq, Repr

/-- The lines of a program (R140, R141). -/
inductive Line where
  /-- A blank line or a comment. -/
  | blank
  /-- A label without parameters: an address in the code (R144). -/
  | label (name : String)
  /-- A label with numbers: one word for each (R144). -/
  | words (name : String) (values : List Int)
  /-- A label with a quoted string: its characters (R145). -/
  | string (name : String) (chars : List Byte)
  /-- An instruction or pseudo-instruction (R143). -/
  | code (p : Pseudo Value)
  /-- A MUL, DIV or REM, with the label `raddr` that stands inside its expansion (`45_pseudo_instructions.md` R138). The
  assembler does not accept the mnemonic: this stands for the lines a programmer writes out. -/
  | call (routine : Routine) (r1 r2 r3 : Reg) (raddr : String)
deriving DecidableEq, Repr

/-- What pass 1 leaves: labels, basic instructions, data bytes. -/
inductive Item where
  | label (name : String)
  | piece (p : Piece Value)
  | data (bytes : List Byte)
deriving DecidableEq, Repr

/-- Pass 1: pseudo-operations become basic instructions, data become bytes (R146). What follows a string's characters in
memory, a terminator or padding, is not in the source (R145, `91_not_in_source.md` N14): the caller states it (log 12). -/
def Line.items (v : Variant) (stringTail : List Byte → List Byte) : Line → List Item
  | .blank => []
  | .label name => [.label name]
  | .words name values => [.label name, .data (values.flatMap fun n => bytesOfRegister (BitVec.ofInt v.width n))]
  | .string name chars => [.label name, .data (chars ++ stringTail chars)]
  | .code p => (p.expand v).map .piece
  | .call routine r1 r2 r3 raddr =>
    (expandCall v r2 r3 (.label routine.entry) (.label raddr)).map .piece ++
      .label raddr :: (expandReturn v r1).map .piece

/-- Whether the line's data have a representation: a number of a data line is a `W`-bit integer, signed or unsigned.
DESIGN CHOICE (log 16): what a number outside -2^(W-1) to 2^W - 1 gives is not in the source (R144). -/
def Line.representable (v : Variant) : Line → Bool
  | .words _ values => values.all fun n => decide (-(2 ^ (v.width - 1) : Int) ≤ n ∧ n < (2 ^ v.width : Int))
  | .blank => true
  | .label _ => true
  | .string _ _ => true
  | .code _ => true
  | .call _ _ _ _ _ => true

/-- The bytes an item takes (R147). -/
def Item.size : Item → Nat
  | .label _ => 0
  | .piece _ => 2
  | .data bytes => bytes.length

/-- Pass 2: a label's value is the address of the next emitted item (R146, R147). -/
def symbolsFrom : Nat → List Item → List (String × Nat)
  | _, [] => []
  | a, .label name :: rest => (name, a) :: symbolsFrom a rest
  | a, .piece p :: rest => symbolsFrom (a + (Item.piece p).size) rest
  | a, .data bytes :: rest => symbolsFrom (a + (Item.data bytes).size) rest

/-- A constant's number, by the table of symbols (R142). The table names no label twice: `assemble` rejects it. -/
def Value.resolve (symbols : List (String × Nat)) : Value → Option Int
  | .number n => some n
  | .label name => (symbols.lookup name).map Int.ofNat

/-- The bytes of a basic instruction; none if it names an undefined label (R146, R150). -/
def Piece.assemble (v : Variant) (symbols : List (String × Nat)) : Piece Value → Option (List Byte)
  | .instr i => some (bytesOfWord (encode i))
  | .ldcByte r index c =>
    (c.resolve symbols).map fun n => bytesOfWord (encode (Piece.resolve v id (.ldcByte r index n)))

/-- Pass 3: the image, from address 0 (R146, R147). -/
def assembleItems (v : Variant) (symbols : List (String × Nat)) : List Item → Option (List Byte)
  | [] => some []
  | .label _ :: rest => assembleItems v symbols rest
  | .piece p :: rest =>
    match p.assemble v symbols, assembleItems v symbols rest with
    | some bytes, some more => some (bytes ++ more)
    | _, _ => none
  | .data bytes :: rest => (assembleItems v symbols rest).map (bytes ++ ·)

/-- Bytes as 16-bit words at rising addresses (R148); an odd number of bytes has no object code in the source. -/
def objectCodeFrom : Nat → List Byte → Option ObjectCode
  | _, [] => some []
  | a, first :: second :: rest => (objectCodeFrom (a + 2) rest).map ((a, wordOfBytes first second) :: ·)
  | _, [_] => none

/-- The object code of a program (R146 to R148). DESIGN CHOICE (log 16): a label declared twice in the one label space
(R147) gives none; the source does not say what it does. -/
def assemble (v : Variant) (stringTail : List Byte → List Byte) (lines : List Line) : Option ObjectCode :=
  let items := lines.flatMap (Line.items v stringTail)
  let symbols := symbolsFrom 0 items
  if lines.all (Line.representable v) ∧ (symbols.map Prod.fst).Nodup then
    (assembleItems v symbols items).bind (objectCodeFrom 0)
  else none

/-! ## The text of a program (R141 to R145) -/

/-- The value of a digit, below sixteen. DESIGN CHOICE (log 16): an upper-case
letter, which no listing has, is no digit (N16). -/
def digitOf (c : Char) : Option Nat :=
  if '0' ≤ c ∧ c ≤ '9' then some (c.toNat - '0'.toNat)
  else if 'a' ≤ c ∧ c ≤ 'f' then some (c.toNat - 'a'.toNat + 10)
  else none

/-- Digits in a base after the value read so far. -/
def digitsIn (base : Nat) : Nat → List Char → Option Nat
  | n, [] => some n
  | n, c :: rest => match digitOf c with
    | some d => if d < base then digitsIn base (base * n + d) rest else none
    | none => none

/-- A number without sign: decimal (123), hexadecimal (0x123), octal (0o123) or binary (0b1010) (R142). -/
def naturalOf : List Char → Option Nat
  | [] => none
  | ['0', 'x'] => none
  | '0' :: 'x' :: rest => digitsIn 16 0 rest
  | ['0', 'o'] => none
  | '0' :: 'o' :: rest => digitsIn 8 0 rest
  | ['0', 'b'] => none
  | '0' :: 'b' :: rest => digitsIn 2 0 rest
  | cs => digitsIn 10 0 cs

/-- A number, which may be negative (R142). -/
def numberOf : List Char → Option Int
  | '-' :: rest => (naturalOf rest).map fun n => -Int.ofNat n
  | cs => (naturalOf cs).map Int.ofNat

/-- A register by its name or its alias (`10_state.md` R12, R142). -/
def registerOf (cs : List Char) : Option Reg :=
  match String.ofList cs with
  | "r0" => some 0
  | "r1" => some 1
  | "r2" => some 2
  | "r3" => some 3
  | "r4" => some 4
  | "r5" => some 5
  | "r6" => some 6
  | "r7" => some 7
  | "at" => some .temporary
  | "sr" => some .scratch
  | "lr" => some .link
  | "sp" => some .stackPointer
  | _ => none

/-- An operand of an instruction: a register, a number, or else a label (R142). -/
inductive Operand where
  | reg (r : Reg)
  | value (x : Value)
deriving DecidableEq, Repr

/-- Read an operand (R142). -/
def operandOf (cs : List Char) : Option Operand :=
  match registerOf cs, numberOf cs, cs with
  | some r, _, _ => some (.reg r)
  | none, some n, _ => some (.value (.number n))
  | none, none, [] => none
  | none, none, _ => some (.value (.label (String.ofList cs)))

/-- The immediate field of a number: its low 8 bits (R142). DESIGN CHOICE (log 16): a number outside -128 to 255, of which
the source does not say whether it is rejected or truncated (R142, N16, U20), is rejected. -/
def immediateOf (n : Int) : Option Byte := if -128 ≤ n ∧ n ≤ 255 then some (BitVec.ofInt 8 n) else none

/-- The encoded form with a number for its immediate. -/
def withImmediate (form : Byte → Instr) (n : Int) : Option (Pseudo Value) := (immediateOf n).map fun k => .real (form k)

/-- The pseudo-instruction or encoded form that a mnemonic and its operands stand for: the choice of format (R143) and
the forms the assembler accepts (R114 to R125). DESIGN CHOICE (log 16): a number for the second operand of LDB, STB, LDW
and STW (`ldw r1,100`), of which the source does not say whether it is accepted (R121, R143, N16), is rejected; so is every
other combination of operands that no rule lists. -/
def instructionOf (mnemonic : String) (operands : List Operand) : Option (Pseudo Value) :=
  match mnemonic, operands with
  | "and", [.reg t, .reg a, .reg b] => some (.real (.andR t a b))
  | "and", [.reg t, .value (.number n)] => withImmediate (.andI t) n
  | "or", [.reg t, .reg a, .reg b] => some (.real (.orR t a b))
  | "or", [.reg t, .value (.number n)] => withImmediate (.orI t) n
  | "xor", [.reg t, .reg a, .reg b] => some (.real (.xorR t a b))
  | "xor", [.reg t, .value (.number n)] => withImmediate (.xorI t) n
  | "slt", [.reg t, .reg a, .reg b] => some (.real (.sltR t a b))
  | "slt", [.reg t, .value (.number n)] => withImmediate (.sltI t) n
  | "sltu", [.reg t, .reg a, .reg b] => some (.real (.sltuR t a b))
  | "sltu", [.reg t, .value (.number n)] => withImmediate (.sltuI t) n
  | "add", [.reg t, .reg a, .reg b] => some (.real (.addR t a b))
  | "add", [.reg t, .value (.number n)] => withImmediate (.addI t) n
  | "sub", [.reg t, .reg a, .reg b] => some (.real (.subR t a b))
  | "sub", [.reg t, .value (.number n)] => withImmediate (.subI t) n
  | "ldr", [.reg t, .value (.number n)] => withImmediate (.ldr t) n
  | "ldc", [.reg t, .value (.number n)] => withImmediate (.ldc t) n
  | "lsr", [.reg t, .reg a, .reg 0] => some (.real (.lsr t a))
  | "lsr", [.reg t, .reg a] => some (.lsr2 t a)
  | "asr", [.reg t, .reg a, .reg 0] => some (.real (.asr t a))
  | "asr", [.reg t, .reg a] => some (.asr2 t a)
  | "ldb", [.reg t, .reg 0, .reg b] => some (.real (.ldb t b))
  | "ldb", [.reg t, .reg b] => some (.ldb2 t b)
  | "ldb", [.reg t, .value (.label l)] => some (.ldbAt t (.label l))
  | "stb", [.reg 0, .reg a, .reg b] => some (.real (.stb a b))
  | "stb", [.reg a, .reg b] => some (.stb2 a b)
  | "stb", [.reg a, .value (.label l)] => some (.stbAt a (.label l))
  | "ldw", [.reg t, .reg 0, .reg b] => some (.real (.ldw t b))
  | "ldw", [.reg t, .reg b] => some (.ldw2 t b)
  | "ldw", [.reg t, .value (.label l)] => some (.ldwAt t (.label l))
  | "stw", [.reg 0, .reg a, .reg b] => some (.real (.stw a b))
  | "stw", [.reg a, .reg b] => some (.stw2 a b)
  | "stw", [.reg a, .value (.label l)] => some (.stwAt a (.label l))
  | "bez", [.reg 0, .reg a, .reg b] => some (.real (.bezR a b))
  | "bez", [.reg a, .reg b] => some (.bez2 a b)
  | "bez", [.reg a, .value (.number n)] => withImmediate (.bezI a) n
  | "bez", [.reg a, .value (.label l)] => some (.bezAt a (.label l))
  | "bnz", [.reg 0, .reg a, .reg b] => some (.real (.bnzR a b))
  | "bnz", [.reg a, .reg b] => some (.bnz2 a b)
  | "bnz", [.reg a, .value (.number n)] => withImmediate (.bnzI a) n
  | "bnz", [.reg a, .value (.label l)] => some (.bnzAt a (.label l))
  | "nop", [] => some .nop
  | "hcf", [] => some .hcf
  | "not", [.reg a] => some (.not a)
  | "neg", [.reg a] => some (.neg a)
  | "lsl", [.reg t, .reg a] => some (.lsl t a)
  | "ldi", [.reg t, .value x] => some (.ldi t x)
  | "lsrm", [.reg t, .reg a] => some (.lsrm t a)
  | "asrm", [.reg t, .reg a] => some (.asrm t a)
  | "lslm", [.reg t, .reg a] => some (.lslm t a)
  | _, _ => none

/-- The pieces of a text between separators. -/
def splitAt (isSeparator : Char → Bool) : List Char → List (List Char)
  | [] => [[]]
  | c :: rest =>
    match splitAt isSeparator rest with
    | [] => [[c]]
    | piece :: more => if isSeparator c then [] :: piece :: more else (c :: piece) :: more

/-- All results, if there is one for each element. -/
def allSome {β γ : Type} (f : β → Option γ) : List β → Option (List γ)
  | [] => some []
  | x :: rest => match f x, allSome f rest with
    | some y, some ys => some (y :: ys)
    | _, _ => none

/-- A space or a tabulation. -/
def isBlankChar (c : Char) : Bool := c == ' ' || c == '\t'

/-- An instruction: mnemonic, a space or a tabulation, and the operands separated by commas without spaces (R141). -/
def parseInstruction (cs : List Char) : Option Line :=
  let mnemonic := String.ofList (cs.takeWhile fun c => !isBlankChar c)
  let operands := match cs.dropWhile fun c => !isBlankChar c with
    | [] => some []
    | _ :: parameters => allSome operandOf (splitAt (· == ',') parameters)
  match operands with
  | none => none
  | some ops => (instructionOf mnemonic ops).map .code

/-- A character of the English language: DEDUCED to mean one of the ASCII codes, 0 to 127 (R141; log 16). -/
def isEnglishChar (c : Char) : Bool := decide (c.toNat < 128)

/-- The characters of a quoted string after its opening quotation mark, with the escapes of R145. DESIGN CHOICE (log 16):
a character is its ASCII code, and one without, or a backslash before another character than t, n or r, is rejected: the
encoding is not in the source, and R145 names no other escape. -/
def parseString : List Char → Option (List Byte)
  | ['"'] => some []
  | '\\' :: 't' :: rest => (parseString rest).map (0x09#8 :: ·)
  | '\\' :: 'n' :: rest => (parseString rest).map (0x0A#8 :: ·)
  | '\\' :: 'r' :: rest => (parseString rest).map (0x0D#8 :: ·)
  | '\\' :: _ => none
  | '"' :: _ => none
  | c :: rest => if isEnglishChar c then (parseString rest).map (BitVec.ofNat 8 c.toNat :: ·) else none
  | [] => none

/-- The name a label is declared with: a name that is neither a register nor a number (R142) and has no colon at its end
(R141). DESIGN CHOICE (log 16): another name is rejected; so is a line of numbers in the first column, a continuation of
data, of which R144 does not say whether it is accepted. -/
def labelOf (cs : List Char) : Option String :=
  match cs.getLast?, operandOf cs with
  | some ':', _ => none
  | _, some (.value (.label name)) => some name
  | _, _ => none

/-- What a label declares, from the text after its name and the blanks that follow it (R144, R145): nothing, a string, or
numbers separated by one space. -/
def declarationOf (name : String) : List Char → Option Line
  | [] => some (.label name)
  | '"' :: rest => (parseString rest).map (.string name)
  | data => (allSome numberOf (splitAt (· == ' ') data)).map (.words name)

/-- One line of a program (R141, R144, R145): a comment begins with a semicolon in the first column, a label stands in
the first column without a tabulation, an instruction follows one tabulation. DESIGN CHOICE (log 16): a comment with
other characters than English ones, which R141 says are not recognised, is rejected; between a label and its data stand
one or more spaces or tabulations, as in Listing A.5. -/
def parseLine : List Char → Option Line
  | [] => some .blank
  | ';' :: comment => if comment.all isEnglishChar then some .blank else none
  | '\t' :: rest => parseInstruction rest
  | ' ' :: _ => none
  | cs =>
    match labelOf (cs.takeWhile fun c => !isBlankChar c) with
    | none => none
    | some name => declarationOf name ((cs.dropWhile fun c => !isBlankChar c).dropWhile isBlankChar)

/-- A program as text: its lines (R140). -/
def parseProgram (text : String) : Option (List Line) :=
  allSome parseLine (splitAt (· == '\n') text.toList)

/-- Four lower-case hexadecimal digits (R148). -/
def hexDigits (n : Nat) : List Char :=
  [n / 4096 % 16, n / 256 % 16, n / 16 % 16, n % 16].map Nat.digitChar

/-- A line of object code as text: the address, a space, the word (R148). DESIGN CHOICE (log 16): the format of the 32-bit
tools is not shown (R148, `91_not_in_source.md` N15), so there is none, and none for an address of more than four digits. -/
def objectLineText (v : Variant) (l : Nat × InstrWord) : Option String :=
  match v with
  | .w16 => if l.1 < 2 ^ 16 then some (String.ofList (hexDigits l.1 ++ [' '] ++ hexDigits l.2.toNat)) else none
  | .w32 => none

/-- Read a line of object code of the 16-bit tools (R148); any other line is rejected (R150). -/
def parseObjectLine (v : Variant) (cs : List Char) : Option (Nat × InstrWord) :=
  match v, cs with
  | .w16, [a3, a2, a1, a0, ' ', w3, w2, w1, w0] =>
    match digitsIn 16 0 [a3, a2, a1, a0], digitsIn 16 0 [w3, w2, w1, w0] with
    | some a, some w => some (a, BitVec.ofNat 16 w)
    | _, _ => none
  | _, _ => none

end Sys2Proof.Machine
end

