-- ==== Sys2Proof/Certificates/Slice0/Obligations.lean ====
section
/-! DEFINITION. The statements for the provers. -/

open Sys2Proof Sys2Proof.Machine

/-! ## Encoding -/

/-- Decode and encode agree, for every instruction the machine has and every operand, under every policy
(`30_encoding.md` R46, R47, R50, R51). -/
def Obligations.DecodeOfEncodeIsIdentity : Prop :=
  ∀ (p : Policy) (i : Instr), i.wellFormed p = true → decode p (encode i) = .ok i

/-- Where the fixed fields are decoded and the branches have one spelling, a word that decodes is the encoding of its
instruction: no two words mean the same (R50, R52, R55). -/
def Obligations.EncodeOfDecodeIsTheWord : Prop :=
  ∀ (p : Policy) (w : InstrWord) (i : Instr), p.fixedField = .fault → p.branchOp2Alias = false →
    decode p w = .ok i → encode i = w

/-- "A word `I` is the instruction of a row exactly when `(I and mask) = match`. The 26 patterns are pairwise disjoint"
(R50), with the spec's policies; and an instruction that is not HCF is of one of the 26 rows. -/
def Obligations.WordIsOfRowExactlyByItsMask : Prop :=
  (∀ (w : InstrWord) (r : OpcodeRow), r ∈ opcodeTable →
    (r.admits w = true ↔ ∃ i, decode .standard w = .ok i ∧ i.row = r)) ∧
  (∀ (w : InstrWord) (i : Instr), decode .standard w = .ok i → i = .hcf ∨ i.row ∈ opcodeTable) ∧
  opcodeTable.length = 26 ∧
  opcodeTable.Pairwise fun r q => ∀ w : InstrWord, ¬ (r.admits w = true ∧ q.admits w = true)

/-- Under the spec's policies the words that do not decode are those of no row, but for HCF's (R53, R54). -/
def Obligations.ReservedWordsAreThoseOfNoRow : Prop :=
  ∀ w : InstrWord, (∃ e, decode .standard w = .error e) ↔ (w ≠ hcfWord ∧ ∀ r ∈ opcodeTable, r.admits w = false)

/-- "Only the exact word `0x0003` is HCF", and only with `HCF_POLICY = halt` (R54), under every policy. -/
def Obligations.HcfIsOneWord : Prop :=
  ∀ (p : Policy) (w : InstrWord), decode p w = .ok .hcf ↔ (w = 0x0003#16 ∧ p.hcf = .halt)

/-- What another value than 000 in a fixed field does is `FIXED_FIELD_POLICY` (R52): with `ignore` the field is not
decoded, with `fault` the word is a reserved encoding (R53). -/
def Obligations.FixedFieldPolicyDecides : Prop :=
  ∀ (p : Policy) (a b f : Reg),
    (p.fixedField = .ignore →
      decode p (formatR 0b0000#4 a b f 0b01#2) = .ok (.lsr a b) ∧
      decode p (formatR 0b0001#4 a b f 0b01#2) = .ok (.asr a b) ∧
      decode p (formatR 0b0000#4 a f b 0b10#2) = .ok (.ldb a b) ∧
      decode p (formatR 0b0100#4 a f b 0b10#2) = .ok (.ldw a b) ∧
      decode p (formatR 0b0001#4 f a b 0b10#2) = .ok (.stb a b) ∧
      decode p (formatR 0b0101#4 f a b 0b10#2) = .ok (.stw a b) ∧
      decode p (formatR 0b1010#4 f a b 0b11#2) = .ok (.bezR a b) ∧
      decode p (formatR 0b1011#4 f a b 0b11#2) = .ok (.bnzR a b)) ∧
    (p.fixedField = .fault → f ≠ 0 →
      decode p (formatR 0b0000#4 a b f 0b01#2) = .error .fixedFieldNonZero ∧
      decode p (formatR 0b0001#4 a b f 0b01#2) = .error .fixedFieldNonZero ∧
      decode p (formatR 0b0000#4 a f b 0b10#2) = .error .fixedFieldNonZero ∧
      decode p (formatR 0b0100#4 a f b 0b10#2) = .error .fixedFieldNonZero ∧
      decode p (formatR 0b0001#4 f a b 0b10#2) = .error .fixedFieldNonZero ∧
      decode p (formatR 0b0101#4 f a b 0b10#2) = .error .fixedFieldNonZero ∧
      decode p (formatR 0b1010#4 f a b 0b11#2) = .error .fixedFieldNonZero ∧
      decode p (formatR 0b1011#4 f a b 0b11#2) = .error .fixedFieldNonZero)

/-- A format-R branch with `Op2` = 00 is the branch exactly with `BRANCH_OP2_ALIAS` (R55; `90_conflicts.md` C1). -/
def Obligations.BranchAliasIsAParameter : Prop :=
  ∀ (p : Policy) (a b : Reg),
    (p.branchOp2Alias = true →
      decode p (formatR 0b1010#4 0 a b 0b00#2) = .ok (.bezR a b) ∧
      decode p (formatR 0b1011#4 0 a b 0b00#2) = .ok (.bnzR a b)) ∧
    (p.branchOp2Alias = false → ∀ f : Reg,
      decode p (formatR 0b1010#4 f a b 0b00#2) = .error .branchOp2Zero ∧
      decode p (formatR 0b1011#4 f a b 0b00#2) = .error .branchOp2Zero)

/-- The words of the manual's format examples (`95_test_vectors.md` §1.1, §1.2), one or more of each family, decode to the
instructions beside them. -/
def Obligations.ExampleWordsDecode : Prop :=
  decodeTableWord 16 0x5328 = some (.addR 3 1 2) ∧ decodeTableWord 16 0x030A = some (.ldb 3 2) ∧
  decodeTableWord 16 0x502A = some (.stw 1 2) ∧ decodeTableWord 16 0x0270 = some (.andR 2 3 4) ∧
  decodeTableWord 16 0xA04F = some (.bezR 2 3) ∧ decodeTableWord 16 0x3328 = some (.sltR 3 1 2) ∧
  decodeTableWord 16 0x0561 = some (.lsr 5 3) ∧ decodeTableWord 16 0x2DFF = some (.xorI 5 0xFF#8) ∧
  decodeTableWord 16 0xAC1C = some (.bezI 4 0x1C#8) ∧ decodeTableWord 16 0x0003 = some .hcf

/-- "The all-zero word `0x0000` is `and r0,r0,r0`, an ordinary instruction of row 1 that writes `x[0]` with its own
value; the assembler's `nop` is this word […] Memory that holds zeros executes as a run of no-ops" (R56): under every
policy it decodes so, it changes nothing but the program counter, and so does a step at two zero bytes. -/
def Obligations.AllZeroWordIsANoOperation : Prop :=
  (∀ p : Policy, decode p 0x0000#16 = .ok (.andR 0 0 0)) ∧ opcodeTable[0]? = some (Instr.andR 0 0 0).row ∧
  (∀ v : Variant, (Pseudo.instructions v .nop).map encode = [0x0000#16]) ∧
  (∀ s : State, exec (.andR 0 0 0) s = .next ⟨s.params, s.core.advance⟩) ∧
  ∀ s : State, s.core.halted = false → s.pcNat % 2 = 0 → s.pcNat + 2 ≤ s.params.variant.ramSize →
    s.byteAt s.pcNat = 0x00#8 → s.byteAt (s.pcNat + 1) = 0x00#8 → step s = .next ⟨s.params, s.core.advance⟩

/-! ## Computation: the result, and that nothing else changes (`40_computation.md` R60) -/

/-- AND, OR, XOR of registers are bitwise (R61, R63, R65). -/
def Obligations.BitwiseRegisterResults : Prop :=
  ∀ (s : State) (rst rsa rsb : Reg),
    s.completes (.andR rst rsa rsb) [rst] (fun t => t.regNat rst = s.regNat rsa &&& s.regNat rsb) ∧
    s.completes (.orR rst rsa rsb) [rst] (fun t => t.regNat rst = s.regNat rsa ||| s.regNat rsb) ∧
    s.completes (.xorR rst rsa rsb) [rst] (fun t => t.regNat rst = s.regNat rsa ^^^ s.regNat rsb)

/-- AND and OR take their immediate zero-extended, XOR sign-extended, that is as its residue modulo `2^W` (R62, R64, R66). -/
def Obligations.BitwiseImmediateResults : Prop :=
  ∀ (s : State) (rst : Reg) (k : Byte),
    s.completes (.andI rst k) [rst] (fun t => t.regNat rst = s.regNat rst &&& k.toNat) ∧
    s.completes (.orI rst k) [rst] (fun t => t.regNat rst = s.regNat rst ||| k.toNat) ∧
    s.completes (.xorI rst k) [rst] (fun t => t.regNat rst = s.regNat rst ^^^ (k.toInt % 2 ^ s.width).toNat)

/-- SLT compares as signed, exactly, for all operands; its immediate is a number from -128 to 127. SLTU compares as
unsigned; its immediate is sign-extended first (R67 to R70, C2). -/
def Obligations.ComparisonResults : Prop :=
  ∀ (s : State) (rst rsa rsb : Reg) (k : Byte),
    s.completes (.sltR rst rsa rsb) [rst] (fun t => t.regNat rst = if s.regInt rsa < s.regInt rsb then 1 else 0) ∧
    s.completes (.sltI rst k) [rst] (fun t => t.regNat rst = if s.regInt rst < k.toInt then 1 else 0) ∧
    s.completes (.sltuR rst rsa rsb) [rst] (fun t => t.regNat rst = if s.regNat rsa < s.regNat rsb then 1 else 0) ∧
    s.completes (.sltuI rst k) [rst]
      (fun t => t.regNat rst = if (s.regNat rst : Int) < k.toInt % 2 ^ s.width then 1 else 0)

/-- ADD wraps modulo `2^W` (R71, R72, R79). -/
def Obligations.AdditionResults : Prop :=
  ∀ (s : State) (rst rsa rsb : Reg) (k : Byte),
    s.completes (.addR rst rsa rsb) [rst] (fun t => t.regNat rst = (s.regNat rsa + s.regNat rsb) % 2 ^ s.width) ∧
    s.completes (.addI rst k) [rst] (fun t => (t.regNat rst : Int) = ((s.regNat rst : Int) + k.toInt) % 2 ^ s.width)

/-- SUB wraps modulo `2^W` (R73, R74, R79). -/
def Obligations.SubtractionResults : Prop :=
  ∀ (s : State) (rst rsa rsb : Reg) (k : Byte),
    s.completes (.subR rst rsa rsb) [rst]
      (fun t => (t.regNat rst : Int) = ((s.regNat rsa : Int) - (s.regNat rsb : Int)) % 2 ^ s.width) ∧
    s.completes (.subI rst k) [rst] (fun t => (t.regNat rst : Int) = ((s.regNat rst : Int) - k.toInt) % 2 ^ s.width)

/-- LDR sets the whole register to a number from -128 to 127, whatever it held (R75). -/
def Obligations.LoadRegisterResult : Prop :=
  ∀ (s : State) (rst : Reg) (k : Byte), s.completes (.ldr rst k) [rst] (fun t => t.regInt rst = k.toInt)

/-- LDC shifts the register left by a byte and puts the immediate in its low byte, without sign extension; the top byte
is lost (R76). -/
def Obligations.LoadConstantResult : Prop :=
  ∀ (s : State) (rst : Reg) (k : Byte),
    s.completes (.ldc rst k) [rst] (fun t => t.regNat rst = (256 * s.regNat rst + k.toNat) % 2 ^ s.width)

/-- LSR halves the unsigned value, ASR the signed value rounding toward minus infinity (`41_shift.md` R81, R82). -/
def Obligations.ShiftResults : Prop :=
  ∀ (s : State) (rst rsa : Reg),
    s.completes (.lsr rst rsa) [rst] (fun t => t.regNat rst = s.regNat rsa / 2) ∧
    s.completes (.asr rst rsa) [rst] (fun t => t.regInt rst = s.regInt rsa / 2)

/-- The signals inside the ALU compute the comparisons: `N xor V` is the exact signed comparison and the borrow is the
exact unsigned one, in both variants (`40_computation.md` R77). -/
def Obligations.AluSignalsComputeTheComparisons : Prop :=
  ∀ (v : Variant) (a b : Word v),
    (aluNegative a b ^^ aluOverflow a b) = decide (a.toInt < b.toInt) ∧ aluBorrow a b = decide (a.toNat < b.toNat)

/-! ## Loads and stores (`42_load_store.md`) -/

/-- LDB from RAM sign-extends the byte (R86). -/
def Obligations.LoadByteResult : Prop :=
  ∀ (s : State) (rst rsb : Reg), s.core.dataAddress rsb + 1 ≤ s.params.variant.ramSize →
    s.completes (.ldb rst rsb) [rst] (fun t => t.regInt rst = (s.byteAt (s.core.dataAddress rsb)).toInt)

/-- LDW from RAM reads the word, the first byte the most significant (R88, `20_memory.md` R28). -/
def Obligations.LoadWordResult : Prop :=
  ∀ (s : State) (rst rsb : Reg), s.core.dataAddress rsb % s.params.variant.wordBytes = 0 →
    s.core.dataAddress rsb + s.params.variant.wordBytes ≤ s.params.variant.ramSize →
    s.completes (.ldw rst rsb) [rst] (fun t => t.regNat rst = s.wordAt (s.core.dataAddress rsb))

/-- STB to RAM stores the low byte of the register at the address, and changes no register, no device and no other
byte (R87, `10_state.md` R14). -/
def Obligations.StoreByteResult : Prop :=
  ∀ (s : State) (rsa rsb : Reg), s.core.dataAddress rsb + 1 ≤ s.params.variant.ramSize →
    ∃ t, exec (.stb rsa rsb) s = .next t ∧ t.pcNat = s.npcNat ∧ s.sameRegsBut t [] ∧ s.sameDevices t ∧
      (t.byteAt (s.core.dataAddress rsb)).toNat = s.regNat rsa % 256 ∧
      s.sameMemoryBut t (s.core.dataAddress rsb) 1

/-- STW to RAM stores the word, the most significant byte at the address, and changes no register, no device and no
byte outside the word (R89, `20_memory.md` R29). -/
def Obligations.StoreWordResult : Prop :=
  ∀ (s : State) (rsa rsb : Reg), s.core.dataAddress rsb % s.params.variant.wordBytes = 0 →
    s.core.dataAddress rsb + s.params.variant.wordBytes ≤ s.params.variant.ramSize →
    ∃ t, exec (.stw rsa rsb) s = .next t ∧ t.pcNat = s.npcNat ∧ s.sameRegsBut t [] ∧ s.sameDevices t ∧
      (∀ i < s.params.variant.wordBytes, (t.byteAt (s.core.dataAddress rsb + i)).toNat =
        s.regNat rsa / 256 ^ (s.params.variant.wordBytes - 1 - i) % 256) ∧
      s.sameMemoryBut t (s.core.dataAddress rsb) s.params.variant.wordBytes

/-- Mixed widths (`20_memory.md` R44): after a word write each byte read is its slice of the word; after a byte write
into a word the word has that byte replaced and the others unchanged; a fetch from a half of a 32-bit word reads that
half. -/
def Obligations.MixedWidthAccessesAgree : Prop :=
  (∀ (v : Variant) (m : Memory) (a k : Nat) (x : Word v), k < v.wordBytes →
    (m.writeWord a x).read (a + k) = x.extractLsb' (v.width - 8 - 8 * k) 8) ∧
  (∀ (v : Variant) (m : Memory) (a k : Nat) (b : Byte), k < v.wordBytes →
    ∀ j < v.wordBytes, ((m.write (a + k) b).readWord v a).extractLsb' (v.width - 8 - 8 * j) 8 =
      if j = k then b else (m.readWord v a).extractLsb' (v.width - 8 - 8 * j) 8) ∧
  ∀ (m : Memory) (a : Nat) (x : Word .w32),
    wordOfBytes ((m.writeWord a x).read a) ((m.writeWord a x).read (a + 1)) = x.extractLsb' 16 16 ∧
    wordOfBytes ((m.writeWord a x).read (a + 2)) ((m.writeWord a x).read (a + 3)) = x.extractLsb' 0 16

/-- A word loaded after it was stored is the word stored: "a load after a store to the same address sees the stored
value" (`20_memory.md` R36, R40). -/
def Obligations.LoadAfterStoreGivesTheWord : Prop :=
  ∀ (s : State) (rsa rsb rst : Reg), s.core.dataAddress rsb % s.params.variant.wordBytes = 0 →
    s.core.dataAddress rsb + s.params.variant.wordBytes ≤ s.params.variant.ramSize →
    ∃ t u, exec (.stw rsa rsb) s = .next t ∧ exec (.ldw rst rsb) t = .next u ∧ u.regNat rst = s.regNat rsa

/-- A store is seen by the next fetch of the same bytes, with nothing in between (`20_memory.md` R42): a machine whose
next instruction lies where a word was stored fetches the upper 16 bits of that word. -/
def Obligations.FetchSeesTheStore : Prop :=
  ∀ (s : State) (rsa rsb : Reg), s.core.dataAddress rsb % s.params.variant.wordBytes = 0 →
    s.core.dataAddress rsb + s.params.variant.wordBytes ≤ s.params.variant.ramSize →
    s.npcNat = s.core.dataAddress rsb →
    ∃ t, exec (.stw rsa rsb) s = .next t ∧
      t.core.fetch = .ok (BitVec.ofNat 16 (s.regNat rsa / 2 ^ (s.width - 16)))

/-- LDW from `IN_CHAR` removes the next item, a character code 0 to 255, and writes it zero-extended; from the oracle it
is a free code (`60_exceptions.md` R173, `92_eei_decisions.md` D19; two input sequences, log 5). -/
def Obligations.CharacterInputIsConsumed : Prop :=
  ∀ (s : State) (rst rsb : Reg), s.core.dataAddress rsb = s.params.variant.inCharAddr →
    (∀ c rest, s.core.inChar = .finite (c :: rest) → ∃ t, exec (.ldw rst rsb) s = .next t ∧ t.regNat rst = c.toNat ∧
      t.inCharNat = .finite (rest.map BitVec.toNat) ∧ t.pcNat = s.npcNat ∧ s.sameRegsBut t [rst] ∧ s.sameMemory t ∧
      s.sameOutput t ∧ t.core.inInt = s.core.inInt ∧ t.params = s.params ∧ t.core.halted = s.core.halted) ∧
    (∀ n, s.core.inChar = .oracle n → ∃ t, exec (.ldw rst rsb) s = .next t ∧
      t.regNat rst = (Config.charInput n).toNat ∧
      t.inCharNat = .oracle (n + 1) ∧ t.pcNat = s.npcNat ∧ s.sameRegsBut t [rst] ∧ s.sameMemory t ∧
      s.sameOutput t ∧ t.core.inInt = s.core.inInt ∧ t.params = s.params ∧ t.core.halted = s.core.halted)

/-- LDW from `IN_INT` removes the next item and writes it modulo `2^W`; from the oracle it is a free value
(`60_exceptions.md` R174). -/
def Obligations.IntegerInputIsConsumed : Prop :=
  ∀ (s : State) (rst rsb : Reg), s.core.dataAddress rsb = s.params.variant.inIntAddr →
    (∀ n rest, s.core.inInt = .finite (n :: rest) → ∃ t, exec (.ldw rst rsb) s = .next t ∧
      (t.regNat rst : Int) = n % 2 ^ s.width ∧
      t.core.inInt = .finite rest ∧ t.pcNat = s.npcNat ∧ s.sameRegsBut t [rst] ∧ s.sameMemory t ∧
      s.sameOutput t ∧ t.inCharNat = s.inCharNat ∧ t.params = s.params ∧ t.core.halted = s.core.halted) ∧
    (∀ n, s.core.inInt = .oracle n → ∃ t, exec (.ldw rst rsb) s = .next t ∧
      (t.regNat rst : Int) = Config.intInput n % 2 ^ s.width ∧
      t.core.inInt = .oracle (n + 1) ∧ t.pcNat = s.npcNat ∧ s.sameRegsBut t [rst] ∧ s.sameMemory t ∧
      s.sameOutput t ∧ t.inCharNat = s.inCharNat ∧ t.params = s.params ∧ t.core.halted = s.core.halted)

/-- LDW from an input register whose finite input has run out raises `InputExhausted` (`60_exceptions.md` R173, R174). -/
def Obligations.ExhaustedInputFaults : Prop :=
  ∀ (s : State) (rst rsb : Reg),
    (s.core.dataAddress rsb = s.params.variant.inCharAddr → s.core.inChar = .finite [] →
      exec (.ldw rst rsb) s = .fault (.inputExhausted s.params.variant.inCharAddr)) ∧
    (s.core.dataAddress rsb = s.params.variant.inIntAddr → s.core.inInt = .finite [] →
      exec (.ldw rst rsb) s = .fault (.inputExhausted s.params.variant.inIntAddr))

/-- STW to an output register appends the register and the whole value to the output, and changes no register, no input
and no memory (`60_exceptions.md` R171, R172). -/
def Obligations.OutputIsAppended : Prop :=
  ∀ (s : State) (rsa rsb : Reg),
    (s.core.dataAddress rsb = s.params.variant.outCharAddr → ∃ t, exec (.stw rsa rsb) s = .next t ∧
      t.outNat = s.outNat ++ [(.char, s.regNat rsa)] ∧ t.pcNat = s.npcNat ∧ s.sameRegsBut t [] ∧ s.sameMemory t ∧
      s.sameInputs t ∧ t.params = s.params ∧ t.core.halted = s.core.halted) ∧
    (s.core.dataAddress rsb = s.params.variant.outIntAddr → ∃ t, exec (.stw rsa rsb) s = .next t ∧
      t.outNat = s.outNat ++ [(.int, s.regNat rsa)] ∧ t.pcNat = s.npcNat ∧ s.sameRegsBut t [] ∧ s.sameMemory t ∧
      s.sameInputs t ∧ t.params = s.params ∧ t.core.halted = s.core.halted)

/-- "A model raises `MisalignedAccess(addr)` and performs no part of the access" for a word access whose address is no
multiple of `WB`, in RAM or anywhere else (`20_memory.md` R31). -/
def Obligations.MisalignedWordAccessFaults : Prop :=
  ∀ (s : State) (r rsb : Reg), s.core.dataAddress rsb % s.params.variant.wordBytes ≠ 0 →
    exec (.ldw r rsb) s = .fault (.misalignedAccess (s.core.dataAddress rsb)) ∧
    exec (.stw r rsb) s = .fault (.misalignedAccess (s.core.dataAddress rsb))

/-- "A byte access (LDB, STB) has no alignment requirement: every address is aligned for a byte" (`20_memory.md` R32). -/
def Obligations.ByteAccessIsNeverMisaligned : Prop :=
  ∀ (s : State) (r rsb : Reg) (a : Nat),
    exec (.ldb r rsb) s ≠ .fault (.misalignedAccess a) ∧ exec (.stb r rsb) s ≠ .fault (.misalignedAccess a)

/-- An aligned access to an address that is neither RAM nor a device register raises `UnmappedAccess` with its kind
(`20_memory.md` R38, `42_load_store.md` R90). -/
def Obligations.UnmappedDataAccessFaults : Prop :=
  ∀ (s : State) (r rsb : Reg), s.params.variant.ramSize ≤ s.core.dataAddress rsb →
    (s.core.dataAddress rsb < s.params.variant.outCharAddr ∨
      s.params.variant.inIntAddr + s.params.variant.wordBytes ≤ s.core.dataAddress rsb) →
    exec (.ldb r rsb) s = .fault (.unmappedAccess (s.core.dataAddress rsb) .load) ∧
    exec (.stb r rsb) s = .fault (.unmappedAccess (s.core.dataAddress rsb) .store) ∧
    (s.core.dataAddress rsb % s.params.variant.wordBytes = 0 →
      exec (.ldw r rsb) s = .fault (.unmappedAccess (s.core.dataAddress rsb) .load) ∧
      exec (.stw r rsb) s = .fault (.unmappedAccess (s.core.dataAddress rsb) .store))

/-- Every other access to the device range raises `DeviceAccess`: a byte access anywhere in it, a word load from an
output register, a word store to an input register (`60_exceptions.md` R175, `20_memory.md` R37). -/
def Obligations.OtherDeviceAccessFaults : Prop :=
  ∀ (s : State) (r rsb : Reg),
    (s.params.variant.outCharAddr ≤ s.core.dataAddress rsb →
      s.core.dataAddress rsb < s.params.variant.inIntAddr + s.params.variant.wordBytes →
      exec (.ldb r rsb) s = .fault (.deviceAccess (s.core.dataAddress rsb)) ∧
      exec (.stb r rsb) s = .fault (.deviceAccess (s.core.dataAddress rsb))) ∧
    (s.core.dataAddress rsb = s.params.variant.outCharAddr ∨ s.core.dataAddress rsb = s.params.variant.outIntAddr →
      exec (.ldw r rsb) s = .fault (.deviceAccess (s.core.dataAddress rsb))) ∧
    (s.core.dataAddress rsb = s.params.variant.inCharAddr ∨ s.core.dataAddress rsb = s.params.variant.inIntAddr →
      exec (.stw r rsb) s = .fault (.deviceAccess (s.core.dataAddress rsb)))

/-! ## Branches (`43_branch.md`) -/

/-- A branch whose condition does not hold goes on in sequence, whatever its target would be (R95, R99). -/
def Obligations.UntakenBranchGoesOn : Prop :=
  ∀ (s : State) (r rsb : Reg) (k : Byte),
    (s.regNat r ≠ 0 → s.goesTo (.bezR r rsb) s.npcNat ∧ s.goesTo (.bezI r k) s.npcNat) ∧
    (s.regNat r = 0 → s.goesTo (.bnzR r rsb) s.npcNat ∧ s.goesTo (.bnzI r k) s.npcNat)

/-- A taken branch to a register goes to the even address in it, absolute, in RAM or not (R96, R99, R100). -/
def Obligations.TakenRegisterBranchGoesToTheRegister : Prop :=
  ∀ (s : State) (r rsb : Reg), s.regNat rsb % 2 = 0 →
    (s.regNat r = 0 → s.goesTo (.bezR r rsb) (s.regNat rsb)) ∧
    (s.regNat r ≠ 0 → s.goesTo (.bnzR r rsb) (s.regNat rsb))

/-- A taken relative branch goes to the address of the next instruction plus the signed byte offset, modulo `2^W`, if
that is even (R97, R98, R101). -/
def Obligations.TakenRelativeBranchGoesToTheOffset : Prop :=
  ∀ (s : State) (r : Reg) (k : Byte), (((s.pcNat : Int) + 2 + k.toInt) % 2 ^ s.width) % 2 = 0 →
    (s.regNat r = 0 → s.goesTo (.bezI r k) (((s.pcNat : Int) + 2 + k.toInt) % 2 ^ s.width).toNat) ∧
    (s.regNat r ≠ 0 → s.goesTo (.bnzI r k) (((s.pcNat : Int) + 2 + k.toInt) % 2 ^ s.width).toNat)

/-- "A model raises `MisalignedTarget(target)` when a branch is taken and `target[0] = 1`" (R99), in all four forms. -/
def Obligations.TakenBranchToOddTargetFaults : Prop :=
  ∀ (s : State) (r rsb : Reg) (k : Byte),
    (s.regNat rsb % 2 = 1 →
      (s.regNat r = 0 → exec (.bezR r rsb) s = .fault (.misalignedTarget (s.regNat rsb))) ∧
      (s.regNat r ≠ 0 → exec (.bnzR r rsb) s = .fault (.misalignedTarget (s.regNat rsb)))) ∧
    ((((s.pcNat : Int) + 2 + k.toInt) % 2 ^ s.width) % 2 = 1 →
      (s.regNat r = 0 →
        exec (.bezI r k) s = .fault (.misalignedTarget (((s.pcNat : Int) + 2 + k.toInt) % 2 ^ s.width).toNat)) ∧
      (s.regNat r ≠ 0 →
        exec (.bnzI r k) s = .fault (.misalignedTarget (((s.pcNat : Int) + 2 + k.toInt) % 2 ^ s.width).toNat)))

/-! ## HCF and the step -/

/-- HCF with `HCF_POLICY = halt` ends the run: the state records it and nothing else changes, the program counter
included; with `HCF_POLICY = reserved` it is `ReservedInstruction(0x0003)` (`44_hcf.md` R111). That the halt is a next
state with `halted` set is the model's choice (log 6). -/
def Obligations.HcfHaltsOrIsReserved : Prop :=
  ∀ s : State,
    (s.params.policy.hcf = .halt → ∃ t, exec .hcf s = .next t ∧ t.core.halted = true ∧ t.pcNat = s.pcNat ∧
      s.sameRegsBut t [] ∧ s.sameMemory t ∧ s.sameOutput t ∧ s.sameInputs t ∧ t.params = s.params) ∧
    (s.params.policy.hcf = .reserved → exec .hcf s = .fault (.reservedInstruction 0x0003#16))

/-- A halted machine has no step: "no step is defined after a halt" (R111). The refusal's name is the model's (log 6). -/
def Obligations.HaltedMachineHasNoStep : Prop :=
  ∀ s : State, s.core.halted = true → step s = .refused .stepAfterHalt

/-- A step runs the decoded instruction: when the program counter is even and in RAM and the two bytes there, the first
the most significant, decode to `i`, the step is `exec i` (`00_scope.md` R8, `20_memory.md` R27, R33). -/
def Obligations.StepRunsTheDecodedInstruction : Prop :=
  ∀ (s : State) (i : Instr), s.core.halted = false → s.pcNat % 2 = 0 → s.pcNat + 2 ≤ s.params.variant.ramSize →
    decode s.params.policy (wordOfBytes (s.byteAt s.pcNat) (s.byteAt (s.pcNat + 1))) = .ok i → step s = exec i s

/-- What the fetch checks, in this order: an odd program counter raises `MisalignedFetch`, one outside RAM
`UnmappedAccess(pc, fetch)`; then a word that does not decode raises `ReservedInstruction` (`20_memory.md` R33,
`30_encoding.md` R53, `60_exceptions.md` R164). -/
def Obligations.StepFaultsInOrder : Prop :=
  ∀ s : State, s.core.halted = false →
    (s.pcNat % 2 = 1 → step s = .fault (.misalignedFetch s.pcNat)) ∧
    (s.pcNat % 2 = 0 → s.params.variant.ramSize < s.pcNat + 2 → step s = .fault (.unmappedAccess s.pcNat .fetch)) ∧
    (s.pcNat % 2 = 0 → s.pcNat + 2 ≤ s.params.variant.ramSize →
      (∃ e, decode s.params.policy (wordOfBytes (s.byteAt s.pcNat) (s.byteAt (s.pcNat + 1))) = .error e) →
      step s = .fault (.reservedInstruction (wordOfBytes (s.byteAt s.pcNat) (s.byteAt (s.pcNat + 1)))))

/-! ## Reset and loading -/

/-- "At reset the PC is 0" (`10_state.md` R20): in State.reset, and in every launch state. -/
def Obligations.ResetStartsAtAddressZero : Prop :=
  State.reset.pcNat = 0 ∧
  ∀ (p : Params) (g : Vector (Word p.variant) 7) (m : Memory) (ic : Input Byte) (ii : Input Int),
    (State.launch p g m ic ii).pcNat = 0

/-- "At reset `x[7] = STACK_TOP`, the address of the last word of RAM: `0xdffe` (`W = 16`) or `0x000ffffc` (`W = 32`)"
(`10_state.md` R23), in every launch state; State.reset is one. -/
def Obligations.ResetStackPointerIsTheLastWord : Prop :=
  ∀ (p : Params) (g : Vector (Word p.variant) 7) (m : Memory) (ic : Input Byte) (ii : Input Int),
    (State.launch p g m ic ii).regNat .stackPointer = (if p.variant = .w16 then 0xDFFE else 0x000FFFFC) ∧
    (State.launch p g m ic ii).regNat .stackPointer + p.variant.wordBytes = p.variant.ramSize

/-- A launch state holds the registers, memory and inputs the host chose, and has emitted nothing (`10_state.md` R24, §6,
`60_exceptions.md` R171, R173). That it is not halted is the model's field (log 6). -/
def Obligations.LaunchHoldsWhatTheHostChose : Prop :=
  ∀ (p : Params) (g : Vector (Word p.variant) 7) (m : Memory) (ic : Input Byte) (ii : Input Int),
    (∀ r : Fin 7, (State.launch p g m ic ii).core.reg r.castSucc = g[r.val]) ∧
    (∀ a, (State.launch p g m ic ii).byteAt a = m.read a) ∧ (State.launch p g m ic ii).outNat = [] ∧
    (State.launch p g m ic ii).core.inChar = ic ∧ (State.launch p g m ic ii).core.inInt = ii ∧
    (State.launch p g m ic ii).core.halted = false

/-- Loading object code whose lines do not overlap puts each word at its address, the first byte the most significant,
and leaves every other byte (`70_reset_and_hazards.md` R181). -/
def Obligations.LoadedImageIsInMemory : Prop :=
  ∀ (s t : State) (code : ObjectCode), s.loadImage code = some t →
    code.Pairwise (fun x y => x.1 + 2 ≤ y.1 ∨ y.1 + 2 ≤ x.1) →
    (∀ l ∈ code, wordOfBytes (t.byteAt l.1) (t.byteAt (l.1 + 1)) = l.2) ∧
    (∀ b, (∀ l ∈ code, b < l.1 ∨ l.1 + 2 ≤ b) → t.byteAt b = s.byteAt b)

/-! ## Rules of the whole machine -/

/-- The invariant of the machine holds at reset, and of every launch state whose memory has it (`10_state.md` R18). -/
def Obligations.ResetMeetsTheInvariant : Prop :=
  State.reset.wf ∧
  ∀ (p : Params) (g : Vector (Word p.variant) 7) (m : Memory) (ic : Input Byte) (ii : Input Int),
    m.wf = true → (∀ c ∈ m, c.1 < p.variant.ramSize) → (State.launch p g m ic ii).wf

/-- Every step keeps the invariant: memory stays in its canonical form, it never lists a byte outside RAM, and the
program counter stays even (`10_state.md` R18, `20_memory.md` R36, R37, R38). -/
def Obligations.EveryStepKeepsTheInvariant : Prop :=
  ∀ s t : State, s.wf → step s = .next t → t.wf

/-- "The PC is always even at the start of a step" (`10_state.md` R18): it is even in every launch state, State.reset
among them, and every step from a state where it is even leaves it even. -/
def Obligations.ProgramCounterStaysEven : Prop :=
  (∀ (p : Params) (g : Vector (Word p.variant) 7) (m : Memory) (ic : Input Byte) (ii : Input Int),
    (State.launch p g m ic ii).pcNat % 2 = 0) ∧
  ∀ s t : State, s.pcNat % 2 = 0 → step s = .next t → t.pcNat % 2 = 0

/-- `MisalignedFetch` is unreachable (`60_exceptions.md` R163): no state reached from one whose program counter is even,
as it is at every launch, raises it. -/
def Obligations.MisalignedFetchIsUnreachable : Prop :=
  ∀ (s t : State) (a : Nat), s.pcNat % 2 = 0 → Reaches s t → step t ≠ .fault (.misalignedFetch a)

/-- The parameters of a run are constant (`00_scope.md` §4, R2). -/
def Obligations.ParametersAreConstant : Prop :=
  ∀ s t : State, Reaches s t → t.params = s.params

/-- Memory changes only by STB and STW (`60_exceptions.md` R176, `20_memory.md` R25): any other instruction that answers
a next state leaves every byte. -/
def Obligations.OnlyStoresChangeMemory : Prop :=
  ∀ (i : Instr) (s t : State), i.isStore = false → exec i s = .next t → s.sameMemory t

/-- An instruction that answers a next state changes no register but its destination; stores and branches have none
(`10_state.md` R13, R14, `40_computation.md` R60). -/
def Obligations.OnlyTheDestinationChanges : Prop :=
  ∀ (i : Instr) (s t : State), exec i s = .next t → s.sameRegsBut t i.destination

/-- "STB, STW, BEZ and BNZ (both formats) write no general register" (`10_state.md` R14); in particular the R-format
stores and branches do not modify `r0`. The rule is the decision D17 of the spec. -/
def Obligations.StoresAndBranchesWriteNoRegister : Prop :=
  ∀ (s t : State) (a b : Reg) (k : Byte),
    (exec (.stb a b) s = .next t ∨ exec (.stw a b) s = .next t ∨ exec (.bezR a b) s = .next t ∨
      exec (.bnzR a b) s = .next t ∨ exec (.bezI a k) s = .next t ∨ exec (.bnzI a k) s = .next t) →
    ∀ r : Reg, t.regNat r = s.regNat r

/-- Nothing but a branch (and HCF, which stays) leaves the sequence: every other instruction that answers a next state
is followed by the one two bytes on, modulo `2^W` (`10_state.md` R15, R16, R17, `43_branch.md` R102). -/
def Obligations.OnlyBranchesLeaveTheSequence : Prop :=
  ∀ (i : Instr) (s t : State), i.isBranch = false → i ≠ .hcf → exec i s = .next t → t.pcNat = s.npcNat

/-- The output only grows, by at most one event a step, and only a word store makes it grow (`60_exceptions.md` R170,
R171, R172). -/
def Obligations.OutputOnlyGrowsByStores : Prop :=
  ∀ (i : Instr) (s t : State), exec i s = .next t →
    t.outNat = s.outNat ∨ ∃ rsa rsb port, i = .stw rsa rsb ∧ t.outNat = s.outNat ++ [(port, s.regNat rsa)]

/-- Computations, shifts and HCF with `HCF_POLICY = halt` never fault: "it cannot fault after it has been fetched and
decoded" (`40_computation.md` R60, `41_shift.md` R80). An instruction that faults is a load, a store, a branch or a
reserved HCF. -/
def Obligations.OnlyAccessesAndBranchesFault : Prop :=
  ∀ (i : Instr) (s : State) (f : Fault), exec i s = .fault f →
    i.isStore = true ∨ i.isBranch = true ∨ (∃ a b, i = .ldb a b ∨ i = .ldw a b) ∨
      (i = .hcf ∧ s.params.policy.hcf = .reserved)

/-! ## The run of the simulator -/

/-- A run of `n` steps to a word that is HCF's ends `Halted` with `n` executed instructions: the HCF is not counted
(`44_hcf.md` R111, `70_reset_and_hazards.md` R191). -/
def Obligations.HaltedRunCountsItsInstructions : Prop :=
  ∀ (s t u : State) (n : Nat), s.core.halted = false → Steps n s t → t.core.halted = false → step t = .next u →
    u.core.halted = true → s.runFor (n + 1) = .halted u n

/-! ## Pseudo-instructions (`45_pseudo_instructions.md`) -/

/-- LDI loads any constant modulo `2^W` whatever the register held, and changes no other register and no memory (R120). -/
def Obligations.LoadImmediateLoadsAnyConstant : Prop :=
  ∀ (s : State) (r : Reg) (c : Int),
    ∃ t, execAll (Pseudo.instructions s.params.variant (.ldi r c)) s = .next t ∧
      (t.regNat r : Int) = c % 2 ^ s.width ∧ s.sameRegsBut t [r] ∧ s.sameMemory t ∧ s.sameDevices t ∧
      t.pcNat = (s.pcNat + 2 * s.params.variant.wordBytes) % 2 ^ s.width

/-- NOT inverts every bit and NEG is the two's complement, `(0 - x) mod 2^W` (R115, R116). -/
def Obligations.ComplementPseudoOperations : Prop :=
  ∀ (s : State) (r : Reg),
    (∃ t, execAll (Pseudo.instructions s.params.variant (.not r)) s = .next t ∧
      t.regNat r = 2 ^ s.width - 1 - s.regNat r ∧ s.sameRegsBut t [r] ∧ s.sameMemory t) ∧
    (∃ t, execAll (Pseudo.instructions s.params.variant (.neg r)) s = .next t ∧
      (t.regNat r : Int) = (0 - (s.regNat r : Int)) % 2 ^ s.width ∧ s.sameRegsBut t [r] ∧ s.sameMemory t)

/-- The conditional sets: SEQ and SNE test equality, SGE and SGEU the signed and unsigned order; SNE leaves `at` 0, SGE
and SGEU leave it 1 (R126 to R129). The target is another register than `at`. -/
def Obligations.ConditionalSetPseudoOperations : Prop :=
  ∀ (s : State) (r1 r2 r3 : Reg), r1 ≠ .temporary →
    (∃ t, execAll (Pseudo.instructions s.params.variant (.seq r1 r2 r3)) s = .next t ∧
      t.regNat r1 = (if s.regNat r2 = s.regNat r3 then 1 else 0) ∧ s.sameRegsBut t [r1]) ∧
    (∃ t, execAll (Pseudo.instructions s.params.variant (.sne r1 r2 r3)) s = .next t ∧
      t.regNat r1 = (if s.regNat r2 = s.regNat r3 then 0 else 1) ∧ t.regNat .temporary = 0 ∧
      s.sameRegsBut t [r1, .temporary]) ∧
    (∃ t, execAll (Pseudo.instructions s.params.variant (.sge r1 r2 r3)) s = .next t ∧
      t.regNat r1 = (if s.regInt r2 ≥ s.regInt r3 then 1 else 0) ∧ t.regNat .temporary = 1 ∧
      s.sameRegsBut t [r1, .temporary]) ∧
    (∃ t, execAll (Pseudo.instructions s.params.variant (.sgeu r1 r2 r3)) s = .next t ∧
      t.regNat r1 = (if s.regNat r2 ≥ s.regNat r3 then 1 else 0) ∧ t.regNat .temporary = 1 ∧
      s.sameRegsBut t [r1, .temporary])
end

