-- ==== Sys2Proof/Tests/Slice0.lean ====
section
/-! SUPPORT. The model's own tests. Expected values come from the spec: words from the tables of `30_encoding.md` R50 and
`95_test_vectors.md` §1, single steps from the derived vectors of `96_derived_vectors.md` §2.1 to §2.6. After them, for
every statement with hypotheses, a concrete case that meets them. -/

namespace Sys2Proof.Tests

open Sys2Proof.Machine

/-! ## Helpers -/

/-- A state with a program counter and some registers given as numbers, the others zero, and memory. -/
def given (p : Params) (pc : Nat) (regs : List (Reg × Nat)) (mem : Memory := []) : State :=
  ⟨p, regs.foldl (fun m r => m.setReg r.1 (BitVec.ofNat _ r.2))
    ⟨BitVec.ofNat _ pc, Vector.replicate 8 0, mem, [], .finite [], .finite [], false⟩⟩

/-- The 16-bit variant at 0x0100, the state of the vectors. -/
def s16 (regs : List (Reg × Nat)) (mem : Memory := []) : State := given ⟨.w16, .standard⟩ 0x0100 regs mem

/-- The 32-bit variant at 0x0100, the state of the vectors. -/
def s32 (regs : List (Reg × Nat)) (mem : Memory := []) : State := given ⟨.w32, .standard⟩ 0x0100 regs mem

/-- The state with these inputs. -/
def withInput (s : State) (ic : Input Byte) (ii : Input Int) : State :=
  ⟨s.params, (s.core.setInChar ic).setInInt ii⟩

/-- What a next state shows, if there is one. -/
def after {α : Type} (o : Host.Outcome State Fault Refusal) (view : State → α) : Option α :=
  match o with
  | .next t => some (view t)
  | .fault _ => none
  | .refused _ => none

/-- One step of the vector's machine on an instruction word. -/
def run {α : Type} (s : State) (w : Nat) (view : State → α) : Option α := after (step (s.withFetchWord 16 w)) view

/-- The fault of one step, if it faults. -/
def stepFault (s : State) : Option Fault :=
  match step s with
  | .next _ => none
  | .fault f => some f
  | .refused _ => none

/-- The fault of one step on an instruction word, if it faults. -/
def faultOf (s : State) (w : Nat) : Option Fault := stepFault (s.withFetchWord 16 w)

/-- `FIXED_FIELD_POLICY = ignore`, `BRANCH_OP2_ALIAS = true`. -/
def lenient : Policy := ⟨true, .ignore, .halt⟩

/-- `HCF_POLICY = reserved`. -/
def bare : Policy := ⟨false, .fault, .reserved⟩

/-! ## WellFormed (`30_encoding.md` R54) -/

theorem test_hcf_is_ill_formed_without_its_policy : Instr.hcf.wellFormed bare = false := by decide
theorem test_hcf_is_well_formed_with_its_policy : Instr.hcf.wellFormed .standard = true := by decide
theorem test_add_is_well_formed : (Instr.addR 3 1 2).wellFormed bare = true := by decide

/-! ## Decode: a word of every constructor, bit by bit from R50, and the encoder's word for it -/

theorem test_decode_andR : decode .standard 0b0000_0_010_011_100_00#16 = .ok (.andR 2 3 4) := by decide
theorem test_decode_andI : decode .standard 0b0000_1_001_00001111#16 = .ok (.andI 1 15#8) := by decide
theorem test_decode_orR : decode .standard 0b0001_0_011_001_010_00#16 = .ok (.orR 3 1 2) := by decide
theorem test_decode_orI : decode .standard 0b0001_1_010_00000001#16 = .ok (.orI 2 1#8) := by decide
theorem test_decode_xorR : decode .standard 0b0010_0_011_001_010_00#16 = .ok (.xorR 3 1 2) := by decide
theorem test_decode_xorI : decode .standard 0b0010_1_101_11111111#16 = .ok (.xorI 5 0xFF#8) := by decide
theorem test_decode_sltR : decode .standard 0b0011_0_011_001_010_00#16 = .ok (.sltR 3 1 2) := by decide
theorem test_decode_sltI : decode .standard 0b0011_1_100_00001010#16 = .ok (.sltI 4 10#8) := by decide
theorem test_decode_sltuR : decode .standard 0b0100_0_011_001_010_00#16 = .ok (.sltuR 3 1 2) := by decide
theorem test_decode_sltuI : decode .standard 0b0100_1_010_11111111#16 = .ok (.sltuI 2 0xFF#8) := by decide
theorem test_decode_addR : decode .standard 0b0101_0_011_001_010_00#16 = .ok (.addR 3 1 2) := by decide
theorem test_decode_addI : decode .standard 0b0101_1_101_00001010#16 = .ok (.addI 5 10#8) := by decide
theorem test_decode_subR : decode .standard 0b0110_0_001_000_001_00#16 = .ok (.subR 1 0 1) := by decide
theorem test_decode_subI : decode .standard 0b0110_1_111_00000010#16 = .ok (.subI 7 2#8) := by decide
theorem test_decode_ldr : decode .standard 0b1000_1_011_00000101#16 = .ok (.ldr 3 5#8) := by decide
theorem test_decode_ldc : decode .standard 0b1001_1_011_00001010#16 = .ok (.ldc 3 10#8) := by decide
theorem test_decode_lsr : decode .standard 0b0000_0_101_011_000_01#16 = .ok (.lsr 5 3) := by decide
theorem test_decode_asr : decode .standard 0b0001_0_101_011_000_01#16 = .ok (.asr 5 3) := by decide
theorem test_decode_ldb : decode .standard 0b0000_0_011_000_010_10#16 = .ok (.ldb 3 2) := by decide
theorem test_decode_stb : decode .standard 0b0001_0_000_001_010_10#16 = .ok (.stb 1 2) := by decide
theorem test_decode_ldw : decode .standard 0b0100_0_001_000_010_10#16 = .ok (.ldw 1 2) := by decide
theorem test_decode_stw : decode .standard 0b0101_0_000_001_010_10#16 = .ok (.stw 1 2) := by decide
theorem test_decode_bezR : decode .standard 0b1010_0_000_010_011_11#16 = .ok (.bezR 2 3) := by decide
theorem test_decode_bezI : decode .standard 0b1010_1_100_00011100#16 = .ok (.bezI 4 28#8) := by decide
theorem test_decode_bnzR : decode .standard 0b1011_0_000_001_000_11#16 = .ok (.bnzR 1 0) := by decide
theorem test_decode_bnzI : decode .standard 0b1011_1_010_11111010#16 = .ok (.bnzI 2 0xFA#8) := by decide
theorem test_decode_hcf : decode .standard 0b0000_0_000_000_000_11#16 = .ok .hcf := by decide

/-- Words of §2.6, with the reason each is reserved for. -/
theorem test_decode_reserved :
    decode .standard 0x7000#16 = .error .reservedRegisterOpcode ∧
    decode .standard 0x7800#16 = .error .reservedImmediateOpcode ∧
    decode .standard 0x8000#16 = .error .reservedRegisterOpcode ∧
    decode .standard 0xFFFF#16 = .error .reservedImmediateOpcode ∧
    decode .standard 0x0007#16 = .error .reservedOp2 ∧ decode .standard 0x2001#16 = .error .reservedOp2 ∧
    decode .standard 0xB020#16 = .error .branchOp2Zero ∧ decode .standard 0x032A#16 = .error .fixedFieldNonZero ∧
    decode bare 0x0003#16 = .error .reservedOp2 := by decide

/-- The same words with the other policies (§2.6). -/
theorem test_decode_lenient :
    decode lenient 0xB020#16 = .ok (.bnzR 1 0) ∧ decode lenient 0x032A#16 = .ok (.ldb 3 2) ∧
    decode lenient 0x512A#16 = .ok (.stw 1 2) ∧ decode lenient 0xA14F#16 = .ok (.bezR 2 3) ∧
    decode lenient 0x1565#16 = .ok (.asr 5 3) ∧ decode lenient 0x0565#16 = .ok (.lsr 5 3) := by decide

/-- The encoder writes the words of §1.1 and §1.2. -/
theorem test_encode :
    encode (.addR 3 1 2) = 0x5328#16 ∧ encode (.ldb 3 2) = 0x030A#16 ∧ encode (.stw 1 2) = 0x502A#16 ∧
    encode (.bezR 2 3) = 0xA04F#16 ∧ encode (.lsr 5 3) = 0x0561#16 ∧ encode (.ldc 3 10#8) = 0x9B0A#16 ∧
    encode .hcf = 0x0003#16 := by decide

/-- The first byte in memory is the most significant (`20_memory.md` R27); bytes that end early are refused by name. -/
theorem test_decode_bytes :
    decodeBytes .standard [0x53#8, 0x28#8, 0xAA#8] = .ok (.addR 3 1 2, [0xAA#8]) ∧
    decodeBytes .standard [0x53#8] = .error .truncated := by decide

/-! ## Single steps: computations and shifts (§2.1 to §2.3) -/

theorem test_and : run (s16 [(3, 0xF0F0), (4, 0x3C3C)]) 0x0270 (·.regNat 2) = some 0x3030 := by decide
theorem test_and_imm : run (s16 [(1, 0xFF80)]) 0x09FF (·.regNat 1) = some 0x0080 := by decide
theorem test_or : run (s32 [(1, 0x0F0F0F0F), (2, 0x00F000F0)]) 0x1328 (·.regNat 3) = some 0x0FFF0FFF := by decide
theorem test_or_imm : run (s32 []) 0x1980 (·.regNat 1) = some 0x80 := by decide
theorem test_xor : run (s16 [(1, 0x00FF), (2, 0x0F0F)]) 0x2328 (·.regNat 3) = some 0x0FF0 := by decide
theorem test_xor_imm : run (s32 [(5, 0x00FF00FF)]) 0x2DFF (·.regNat 5) = some 0xFF00FF00 := by decide
theorem test_slt : run (s16 [(1, 0x8000), (2, 0x7FFF), (3, 0x7777)]) 0x3328 (·.regNat 3) = some 1 := by decide
theorem test_slt_imm : run (s16 [(1, 0xFFFE)]) 0x39FF (·.regNat 1) = some 1 := by decide
theorem test_sltu : run (s16 [(1, 0x8000), (2, 0x7FFF), (3, 0x7777)]) 0x4328 (·.regNat 3) = some 0 := by decide
theorem test_sltu_imm : run (s32 [(2, 0xFFFFFFFE)]) 0x4AFF (·.regNat 2) = some 1 := by decide
theorem test_add : run (s16 [(1, 0xFFFF), (2, 0x0001), (3, 7)]) 0x5328 (·.regNat 3) = some 0 := by decide
theorem test_add_imm : run (s32 [(5, 0xFFFFFFFB)]) 0x5D0A (·.regNat 5) = some 5 := by decide
theorem test_sub : run (s16 [(1, 5)]) 0x6104 (·.regNat 1) = some 0xFFFB := by decide
theorem test_sub_imm : run (s16 []) 0x6A80 (·.regNat 2) = some 0x80 := by decide
theorem test_ldr : run (s32 []) 0x8980 (·.regNat 1) = some 0xFFFFFF80 := by decide
theorem test_ldc : run (s32 [(3, 0xABCDABCD)]) 0x9B0A (·.regNat 3) = some 0xCDABCD0A := by decide
theorem test_lsr : run (s16 [(0, 0x1234), (3, 0x8001)]) 0x0561 (·.regNat 5) = some 0x4000 := by decide
theorem test_asr : run (s32 [(3, 0x80000001)]) 0x1561 (·.regNat 5) = some 0xC0000000 := by decide

/-! ## Single steps: loads and stores (§2.4) -/

theorem test_ldb_sign :
    run (s32 [(2, 0x0300), (3, 0x7777)] [(0x0300, 0x80#8)]) 0x030A (·.regNat 3) = some 0xFFFFFF80 := by decide
theorem test_ldb_last_byte :
    run (s16 [(2, 0xDFFF), (3, 0x7777)] [(0xDFFF, 0x01#8)]) 0x030A (·.regNat 3) = some 1 := by decide
theorem test_stb_one_byte :
    run (s16 [(1, 0x1234), (2, 0x0301)] [(0x0300, 0xAA#8), (0x0301, 0xBB#8)]) 0x102A
      (fun t => (t.byteAt 0x0300, t.byteAt 0x0301)) = some (0xAA#8, 0x34#8) := by decide
theorem test_ldw_big_endian :
    run (s32 [(2, 0x0200)] [(0x0200, 0x12#8), (0x0201, 0x34#8), (0x0202, 0x56#8), (0x0203, 0x78#8)])
      0x410A (·.regNat 1) = some 0x12345678 := by decide
theorem test_ldw_in_int : run (withInput (s32 [(2, 0xF000000C)]) (.finite []) (.finite [-2]))
    0x410A (fun t => (t.regNat 1, t.core.inInt)) = some (0xFFFFFFFE, .finite []) := by decide
theorem test_stw_last_word :
    run (s16 [(1, 0xC3D4), (2, 0xDFFE)]) 0x502A (fun t => (t.byteAt 0xDFFE, t.byteAt 0xDFFF)) =
      some (0xC3#8, 0xD4#8) := by decide
theorem test_stw_out_int :
    run (s16 [(1, 0xFFFF), (2, 0xF002)]) 0x502A State.outNat = some [(.int, 0xFFFF)] := by decide
theorem test_access_faults :
    faultOf (s16 [(2, 0xE000)]) 0x030A = some (.unmappedAccess 0xE000 .load) ∧
    faultOf (s16 [(2, 0xF001)]) 0x410A = some (.misalignedAccess 0xF001) ∧
    faultOf (s16 [(2, 0xF008)]) 0x410A = some (.unmappedAccess 0xF008 .load) ∧
    faultOf (s16 [(1, 1), (2, 0xF004)]) 0x502A = some (.deviceAccess 0xF004) ∧
    faultOf (s16 [(2, 0xF006)]) 0x410A = some (.inputExhausted 0xF006) := by decide

/-! ## Single steps: branches, HCF and the fetch (§2.5, §2.6) -/

theorem test_bez_register : run (s16 [(3, 0x0200)]) 0xA04F State.pcNat = some 0x0200 := by decide
theorem test_bez_odd_target :
    faultOf (s16 [(3, 0x0201)]) 0xA04F = some (.misalignedTarget 0x0201) ∧
    run (s16 [(2, 5), (3, 0x0201)]) 0xA04F State.pcNat = some 0x0102 := by decide
theorem test_bez_relative : run (s16 []) 0xAC1C State.pcNat = some 0x011E := by decide
theorem test_bez_wraps :
    run (given ⟨.w32, .standard⟩ 2 []) 0xA9FA State.pcNat = some 0xFFFFFFFE := by decide
theorem test_bnz_register : run (s16 [(6, 0x26), (7, 0xDFFE)]) 0xB0FB State.pcNat = some 0x26 := by decide
theorem test_bnz_relative : run (s16 [(2, 1)]) 0xBAFA State.pcNat = some 0x00FC := by decide
theorem test_bnz_largest_offset :
    faultOf (s16 [(1, 1)]) 0xB97F = some (.misalignedTarget 0x0181) ∧
    run (s16 [(1, 1)]) 0xB980 State.pcNat = some 0x0082 := by decide
theorem test_hcf : run (s16 []) 0x0003 (fun t => (t.pcNat, t.core.halted)) =
    some (0x0100, true) := by decide
theorem test_reserved_word : faultOf (s16 [(0, 8), (1, 1)]) 0xB020 = some (.reservedInstruction 0xB020#16) := by
  decide
theorem test_fetch_faults :
    stepFault (given ⟨.w16, .standard⟩ 0xE000 []) = some (.unmappedAccess 0xE000 .fetch) ∧
    stepFault (given ⟨.w16, .standard⟩ 0xF004 []) = some (.unmappedAccess 0xF004 .fetch) ∧
    stepFault (given ⟨.w32, .standard⟩ 0x100000 []) = some (.unmappedAccess 0x100000 .fetch) := by decide
theorem test_last_word_runs : run (given ⟨.w16, .standard⟩ 0xDFFE []) 0x8901
    (fun t => (t.regNat 1, t.pcNat)) = some (1, 0xE000) := by decide

/-- The first instruction placed after reset runs first (`70_reset_and_hazards.md` R182). -/
theorem test_first_instruction :
    after (step (State.reset.withFetchWord 16 0x8B05)) (fun t => (t.regNat 3, t.pcNat, t.regNat 7)) =
      some (5, 2, 0xDFFE) := by decide

/-! ## Pseudo-instructions and the assembler (`45_pseudo_instructions.md` R120, `46_assembler_and_simulator.md` R147, R148) -/

theorem test_ldi_words : (Pseudo.instructions .w16 (.ldi 1 0x1234)).map encode = [0x9912#16, 0x9934#16] ∧
    (Pseudo.instructions .w32 (.ldi 1 0x1234)).map encode = [0x9900#16, 0x9900#16, 0x9912#16, 0x9934#16] := by decide
theorem test_assemble_label : assemble .w16 id [.code (.ldi 1 (.label "end")), .label "end", .code .hcf] =
    some [(0, 0x9900#16), (2, 0x9904#16), (4, 0x0003#16)] := by decide

/-- `mul r1,r2,r3` with its return address inside and the routine after it: the words of R138, by hand (R50, R91). -/
theorem test_assemble_call :
    (assemble .w16 id [.call .mulsi3 1 2 3 "back", .label "mulsi3", .code .ret]).map (·.map Prod.snd) =
      some [0x6F02#16, 0x505E#16, 0x6F02#16, 0x507E#16, 0x6F02#16, 0x50DE#16, 0x9E00#16, 0x9E16#16, 0x9D00#16, 0x9D1C#16,
        0xB0F7#16, 0x461E#16, 0x5F06#16, 0x01B4#16, 0xB0FB#16] := by decide

/-- What log 16 rejects. -/
theorem test_assemble_rejections : assemble .w16 id [.label "a", .label "a"] = none ∧
    assemble .w16 id [.call .divsi3 1 2 3 "back"] = none ∧ assemble .w16 id [.words "a" [65536]] = none ∧
    instructionOf "ldw" [.reg 1, .value (.number 100)] = none ∧
    immediateOf 256 = none ∧ immediateOf (-1) = some 0xFF#8 ∧ parseString ['\\', '0', '"'] = none ∧
    parseLine ['1', '3'] = none ∧ parseLine ['a', ':'] = none ∧ objectLineText .w32 (0, 0#16) = none := by decide

/-! ## Every statement's hypotheses are met

`test_meets_<Name>` gives, for the statement `Obligations.<Name>`, concrete values that meet its hypotheses together, for
each of its clauses. -/

theorem test_meets_DecodeOfEncodeIsIdentity :
    Instr.hcf.wellFormed .standard = true ∧ (Instr.stw 7 7).wellFormed bare = true := by decide
theorem test_meets_EncodeOfDecodeIsTheWord :
    Policy.standard.fixedField = .fault ∧ Policy.standard.branchOp2Alias = false ∧
      decode .standard 0xA04F#16 = .ok (.bezR 2 3) := by decide
theorem test_meets_WordIsOfRowExactlyByItsMask :
    (Instr.stw 0 0).row ∈ opcodeTable ∧ decode .standard 0x502A#16 = .ok (.stw 1 2) := by decide
theorem test_meets_FixedFieldPolicyDecides :
    lenient.fixedField = .ignore ∧ Policy.standard.fixedField = .fault ∧ (7 : Reg) ≠ 0 := by decide
theorem test_meets_BranchAliasIsAParameter : lenient.branchOp2Alias = true ∧ bare.branchOp2Alias = false := by decide

/-- Two zero bytes at the last word of RAM. -/
theorem test_meets_AllZeroWordIsANoOperation :
    (given ⟨.w16, .standard⟩ 0xDFFE []).core.halted = false ∧ (given ⟨.w16, .standard⟩ 0xDFFE []).pcNat % 2 = 0 ∧
    (given ⟨.w16, .standard⟩ 0xDFFE []).pcNat + 2 ≤ Variant.w16.ramSize ∧
    (given ⟨.w16, .standard⟩ 0xDFFE []).byteAt (given ⟨.w16, .standard⟩ 0xDFFE []).pcNat = 0x00#8 ∧
    (given ⟨.w16, .standard⟩ 0xDFFE []).byteAt ((given ⟨.w16, .standard⟩ 0xDFFE []).pcNat + 1) = 0x00#8 := by decide

/-- Bytes: the first and the last of RAM, in both variants (LoadByteResult, StoreByteResult). -/
theorem test_meets_LoadByteResult :
    (s16 []).core.dataAddress 2 + 1 ≤ 0xE000 ∧
    (s16 [(2, 0xDFFF)]).core.dataAddress 2 + 1 ≤ (s16 [(2, 0xDFFF)]).params.variant.ramSize ∧
    (s32 [(2, 0xFFFFF)]).core.dataAddress 2 + 1 ≤
      (s32 [(2, 0xFFFFF)]).params.variant.ramSize := by decide
theorem test_meets_StoreByteResult :
    (s16 [(1, 0x1234), (2, 0xDFFF)]).core.dataAddress 2 + 1 ≤
      (s16 [(1, 0x1234), (2, 0xDFFF)]).params.variant.ramSize := by decide

/-- The hypothesis of the word accesses. -/
abbrev wordInRam (s : State) (rsb : Reg) : Prop :=
  s.core.dataAddress rsb % s.params.variant.wordBytes = 0 ∧
    s.core.dataAddress rsb + s.params.variant.wordBytes ≤ s.params.variant.ramSize

/-- Words: the first and the last of RAM, in both variants. -/
theorem test_meets_LoadWordResult :
    wordInRam (s16 []) 2 ∧ wordInRam (s16 [(2, 0xDFFE)]) 2 ∧
    wordInRam (s32 [(2, 0xFFFFC)]) 2 := by decide
theorem test_meets_StoreWordResult :
    wordInRam (s16 [(1, 0xC3D4), (2, 0xDFFE)]) 2 ∧ wordInRam (s32 [(1, 1), (2, 0xFFFFC)]) 2 ∧
      1 < Variant.w16.wordBytes ∧ 3 < Variant.w32.wordBytes := by decide
theorem test_meets_MixedWidthAccessesAgree : 1 < Variant.w16.wordBytes ∧ 3 < Variant.w32.wordBytes := by decide
theorem test_meets_LoadAfterStoreGivesTheWord : wordInRam (s32 [(1, 0xDEADBEEF), (2, 0x0200)]) 2 := by decide
theorem test_meets_FetchSeesTheStore :
    wordInRam (given ⟨.w32, .standard⟩ 0x0102 [(1, 0x89050000), (2, 0x0104)]) 2 ∧
    (given ⟨.w32, .standard⟩ 0x0102 [(1, 0x89050000), (2, 0x0104)]).npcNat =
      (given ⟨.w32, .standard⟩ 0x0102 [(1, 0x89050000), (2, 0x0104)]).core.dataAddress 2 := by decide

/-- A 16-bit machine about to read the device at the address, with these inputs. -/
def reading (addr : Nat) (ic : Input Byte) (ii : Input Int) : State :=
  withInput (s16 [(1, 0x41), (2, addr)]) ic ii

theorem test_meets_CharacterInputIsConsumed :
    (reading 0xF004 (.finite [65#8, 66#8]) (.finite [])).core.dataAddress 2 = Variant.w16.inCharAddr ∧
    (reading 0xF004 (.finite [65#8, 66#8]) (.finite [])).core.inChar = .finite (65#8 :: [66#8]) ∧
    (reading 0xF004 (.oracle 0) (.oracle 0)).core.dataAddress 2 = Variant.w16.inCharAddr ∧
    (reading 0xF004 (.oracle 0) (.oracle 0)).core.inChar = .oracle 0 := by decide
theorem test_meets_IntegerInputIsConsumed :
    (reading 0xF006 (.finite []) (.finite [-2])).core.dataAddress 2 = Variant.w16.inIntAddr ∧
    (reading 0xF006 (.finite []) (.finite [-2])).core.inInt = .finite (-2 :: []) ∧
    (reading 0xF006 (.oracle 0) (.oracle 0)).core.inInt = .oracle 0 := by decide
theorem test_meets_ExhaustedInputFaults :
    (reading 0xF004 (.finite []) (.oracle 0)).core.dataAddress 2 = Variant.w16.inCharAddr ∧
    (reading 0xF004 (.finite []) (.oracle 0)).core.inChar = .finite [] ∧
    (reading 0xF006 (.oracle 0) (.finite [])).core.dataAddress 2 = Variant.w16.inIntAddr ∧
    (reading 0xF006 (.oracle 0) (.finite [])).core.inInt = .finite [] := by decide
theorem test_meets_OutputIsAppended :
    (s16 [(1, 0x41), (2, 0xF000)]).core.dataAddress 2 = Variant.w16.outCharAddr ∧
    (s32 [(1, 0x41), (2, 0xF0000004)]).core.dataAddress 2 = Variant.w32.outIntAddr := by decide
theorem test_meets_MisalignedWordAccessFaults :
    (s16 [(2, 0xF001)]).core.dataAddress 2 % Variant.w16.wordBytes ≠ 0 ∧
    (s32 [(2, 0x0202)]).core.dataAddress 2 % Variant.w32.wordBytes ≠ 0 := by decide

/-- The hypotheses of UnmappedDataAccessFaults, word access included. -/
abbrev unmappedWord (s : State) (rsb : Reg) : Prop :=
  s.params.variant.ramSize ≤ s.core.dataAddress rsb ∧
    (s.core.dataAddress rsb < s.params.variant.outCharAddr ∨
      s.params.variant.inIntAddr + s.params.variant.wordBytes ≤ s.core.dataAddress rsb) ∧
    s.core.dataAddress rsb % s.params.variant.wordBytes = 0

theorem test_meets_UnmappedDataAccessFaults :
    unmappedWord (s16 [(2, 0xE000)]) 2 ∧ unmappedWord (s16 [(2, 0xEFFE)]) 2 ∧
    unmappedWord (s16 [(2, 0xF008)]) 2 ∧ unmappedWord (s32 [(2, 0xFFFFFFFC)]) 2 := by
  decide
theorem test_meets_OtherDeviceAccessFaults :
    Variant.w16.outCharAddr ≤ (s16 [(2, 0xF007)]).core.dataAddress 2 ∧
    (s16 [(2, 0xF007)]).core.dataAddress 2 < Variant.w16.inIntAddr + Variant.w16.wordBytes ∧
    (s16 [(2, 0xF000)]).core.dataAddress 2 = Variant.w16.outCharAddr ∧
    (s16 [(2, 0xF002)]).core.dataAddress 2 = Variant.w16.outIntAddr ∧
    (s16 [(2, 0xF004)]).core.dataAddress 2 = Variant.w16.inCharAddr ∧
    (s16 [(2, 0xF006)]).core.dataAddress 2 = Variant.w16.inIntAddr := by decide

theorem test_meets_UntakenBranchGoesOn :
    (s16 [(1, 5), (3, 0x0201)]).regNat 1 ≠ 0 ∧ (s16 [(1, 5), (3, 0x0201)]).regNat 2 = 0 := by decide
theorem test_meets_TakenRegisterBranchGoesToTheRegister :
    (s16 [(3, 0xFFFE), (4, 1)]).regNat 3 % 2 = 0 ∧ (s16 [(3, 0xFFFE), (4, 1)]).regNat 2 = 0 ∧
    (s16 [(3, 0xFFFE), (4, 1)]).regNat 4 ≠ 0 := by decide

/-- The target of a relative branch, as the statements write it. -/
abbrev relative (s : State) (k : Byte) : Int := ((s.pcNat : Int) + 2 + k.toInt) % 2 ^ s.width

theorem test_meets_TakenRelativeBranchGoesToTheOffset :
    relative (s16 [(4, 1)]) 126#8 % 2 = 0 ∧ relative (s16 [(4, 1)]) 0x80#8 % 2 = 0 ∧
    (s16 [(4, 1)]).regNat 2 = 0 ∧ (s16 [(4, 1)]).regNat 4 ≠ 0 := by decide
theorem test_meets_TakenBranchToOddTargetFaults :
    (s16 [(3, 0x0201), (4, 1)]).regNat 3 % 2 = 1 ∧ relative (s16 [(3, 0x0201), (4, 1)]) 127#8 % 2 = 1 ∧
    (s16 [(3, 0x0201), (4, 1)]).regNat 2 = 0 ∧ (s16 [(3, 0x0201), (4, 1)]).regNat 4 ≠ 0 := by decide

theorem test_meets_HcfHaltsOrIsReserved :
    State.reset.params.policy.hcf = .halt ∧
    (given ⟨.w16, bare⟩ 0 []).params.policy.hcf = .reserved := by decide

/-- A machine that an HCF has halted. -/
def haltedMachine : State := ⟨State.reset.params, State.reset.core.halt⟩

theorem test_meets_HaltedMachineHasNoStep : haltedMachine.core.halted = true := by decide

/-- The add of the vectors, at the last word of RAM. -/
def adding : State := (given ⟨.w16, .standard⟩ 0xDFFE [(1, 1), (2, 2)]).withFetchWord 16 0x5328

theorem test_meets_StepRunsTheDecodedInstruction :
    adding.core.halted = false ∧ adding.pcNat % 2 = 0 ∧ adding.pcNat + 2 ≤ adding.params.variant.ramSize ∧
    decode adding.params.policy (wordOfBytes (adding.byteAt adding.pcNat) (adding.byteAt (adding.pcNat + 1))) =
      .ok (.addR 3 1 2) := by decide

/-- A reserved word at the program counter. -/
def reservedNext : State := (s16 []).withFetchWord 16 0xFFFF

theorem test_meets_StepFaultsInOrder_address :
    (given ⟨.w16, .standard⟩ 0x0101 []).pcNat % 2 = 1 ∧
    (given ⟨.w16, .standard⟩ 0xE000 []).pcNat % 2 = 0 ∧
    0xE000 < (given ⟨.w16, .standard⟩ 0xE000 []).pcNat + 2 ∧
    (given ⟨.w16, .standard⟩ 0xE000 []).core.halted = false := by decide
theorem test_meets_StepFaultsInOrder_word :
    reservedNext.core.halted = false ∧ reservedNext.pcNat % 2 = 0 ∧
    reservedNext.pcNat + 2 ≤ reservedNext.params.variant.ramSize ∧
    decode reservedNext.params.policy
      (wordOfBytes (reservedNext.byteAt reservedNext.pcNat) (reservedNext.byteAt (reservedNext.pcNat + 1))) =
      .error .reservedImmediateOpcode := by decide

/-- Two lines of object code, one at the last word of RAM. -/
def image : ObjectCode := [(0, 0x8B05#16), (0xDFFE, 0x0003#16)]

theorem test_meets_LoadedImageIsInMemory :
    (∃ t, State.reset.loadImage image = some t) ∧
    image.Pairwise (fun x y => x.1 + 2 ≤ y.1 ∨ y.1 + 2 ≤ x.1) ∧ (0, 0x8B05#16) ∈ image ∧
    (∀ l ∈ image, 2 < l.1 ∨ l.1 + 2 ≤ 2) := ⟨⟨_, rfl⟩, by decide, by decide, by decide⟩

theorem test_meets_ResetMeetsTheInvariant :
    Memory.wf [(0, 0x8B#8), (0xDFFF, 0x03#8)] = true ∧
    ∀ c ∈ ([(0, 0x8B#8), (0xDFFF, 0x03#8)] : Memory), c.1 < Variant.w16.ramSize := by decide

/-- A state of the invariant that steps: a store to the last word of RAM. -/
def storing : State := (s16 [(1, 0xC3D4), (2, 0xDFFE)]).withFetchWord 16 0x502A

theorem test_meets_EveryStepKeepsTheInvariant : ∃ t, storing.wf ∧ step storing = .next t :=
  ⟨_, ⟨by decide, by decide, by decide⟩, rfl⟩
theorem test_meets_ProgramCounterStaysEven : ∃ t, storing.pcNat % 2 = 0 ∧ step storing = .next t := ⟨_, by decide, rfl⟩
theorem test_meets_MisalignedFetchIsUnreachable : ∃ t, storing.pcNat % 2 = 0 ∧ Reaches storing t ∧ t.pcNat = 0x0102 :=
  ⟨_, by decide, ⟨1, _, rfl, rfl⟩, by decide⟩
theorem test_meets_ParametersAreConstant : ∃ t, Reaches storing t ∧ t.pcNat = 0x0102 :=
  ⟨_, ⟨1, _, rfl, rfl⟩, by decide⟩
theorem test_meets_OnlyStoresChangeMemory :
    ∃ t, (Instr.addR 3 1 2).isStore = false ∧ exec (.addR 3 1 2) storing = .next t := ⟨_, by decide, rfl⟩
theorem test_meets_OnlyTheDestinationChanges :
    ∃ t, exec (.addR 3 1 2) storing = .next t ∧ (1 : Reg) ∉ (Instr.addR 3 1 2).destination := ⟨_, rfl, by decide⟩
theorem test_meets_StoresAndBranchesWriteNoRegister :
    (∃ t, exec (.stb 1 2) storing = .next t) ∧ (∃ t, exec (.stw 1 2) storing = .next t) ∧
    (∃ t, exec (.bezR 0 2) storing = .next t) ∧ (∃ t, exec (.bnzR 1 2) storing = .next t) ∧
    (∃ t, exec (.bezI 0 0x80#8) storing = .next t) ∧ (∃ t, exec (.bnzI 1 126#8) storing = .next t) :=
  ⟨⟨_, rfl⟩, ⟨_, rfl⟩, ⟨_, rfl⟩, ⟨_, rfl⟩, ⟨_, rfl⟩, ⟨_, rfl⟩⟩
theorem test_meets_OnlyBranchesLeaveTheSequence :
    ∃ t, (Instr.stw 1 2).isBranch = false ∧ Instr.stw 1 2 ≠ .hcf ∧ exec (.stw 1 2) storing = .next t :=
  ⟨_, by decide, by decide, rfl⟩
theorem test_meets_OutputOnlyGrowsByStores :
    ∃ t, exec (.stw 1 2) (s16 [(1, 0x41), (2, 0xF000)]) = .next t ∧ t.outNat = [(.char, 0x41)] :=
  ⟨_, rfl, by decide⟩
theorem test_meets_OnlyAccessesAndBranchesFault :
    exec (.stb 1 2) (s16 [(2, 0xE000)]) = .fault (.unmappedAccess 0xE000 .store) ∧
    exec (.bnzR 2 2) (s16 [(2, 0x0201)]) = .fault (.misalignedTarget 0x0201) ∧
    exec (.ldw 1 2) (s16 [(2, 0xF000)]) = .fault (.deviceAccess 0xF000) ∧
    exec .hcf (given ⟨.w16, bare⟩ 0 []) = .fault (.reservedInstruction 0x0003#16) := ⟨rfl, rfl, rfl, rfl⟩

/-- A program of one instruction and an HCF, at reset. -/
def ldrThenHcf : State := ⟨State.reset.params, State.reset.core.setMem (State.reset.core.mem.load [(0, 0x8B05#16), (2, 0x0003#16)])⟩

theorem test_meets_HaltedRunCountsItsInstructions :
    ∃ t u, ldrThenHcf.core.halted = false ∧ Steps 1 ldrThenHcf t ∧ t.core.halted = false ∧ step t = .next u ∧
      u.core.halted = true := ⟨_, _, by decide, ⟨_, rfl, rfl⟩, by decide, rfl, by decide⟩
theorem test_meets_ConditionalSetPseudoOperations : (1 : Reg) ≠ .temporary ∧ (7 : Reg) ≠ .temporary := by decide

end Sys2Proof.Tests
end

section
/-! PROOFS. The scope of a run (`00_scope.md`): what reaching a state keeps, and which instruction a step runs. -/

namespace Sys2Proof.Machine

/-! ## Invariants along a run -/

/-- What every step keeps, every number of steps keeps. -/
theorem Steps.keeps {P : State → Prop} (keep : ∀ {s t : State}, P s → step s = .next t → P t) {n : Nat} :
    ∀ {s t : State}, Steps n s t → P s → P t := by
  induction n with
  | zero =>
    rintro s t rfl hs
    exact hs
  | succ n ih =>
    rintro s t ⟨u, hstep, hrest⟩ hs
    exact ih hrest (keep hs hstep)

/-- What every step keeps holds of every state reached from one it holds of. -/
theorem Reaches.keeps {P : State → Prop} (keep : ∀ {s t : State}, P s → step s = .next t → P t) {s t : State}
    (h : Reaches s t) (hs : P s) : P t := by
  obtain ⟨n, hn⟩ := h
  exact hn.keeps keep hs

/-- No effect of an instruction touches the parameters (`00_scope.md` R2). -/
theorem Effect.params_eq {s t : State} {i : Instr} (h : Effect s i t) : t.params = s.params := by
  cases h <;> rfl

/-- A step answers a state with the same parameters (`00_scope.md` R2). -/
theorem step_params {s t : State} (h : step s = .next t) : t.params = s.params := by
  obtain ⟨i, -, effect⟩ := step_effect h
  exact effect.params_eq

/-- Settles O50: having the parameters of the first state is kept by every step, so it holds along the run. -/
theorem parametersAreConstant : Obligations.ParametersAreConstant := by
  intro s t h
  exact h.keeps (P := fun u => u.params = s.params) (fun hu hstep => (step_params hstep).trans hu) rfl

/-! ## Fetch, decode, execute -/

/-- The fetch at an even program counter in RAM answers the word of the two bytes there (`20_memory.md` R27, R33). -/
theorem State.fetch_inRam {s : State} (even : s.pcNat % 2 = 0) (inRam : s.pcNat + 2 ≤ s.params.variant.ramSize) :
    s.core.fetch = .ok (wordOfBytes (s.byteAt s.pcNat) (s.byteAt (s.pcNat + 1))) := by
  obtain ⟨p, c⟩ := s
  simp only [State.pcNat_mk, State.byteAt_mk] at *
  rcases c.fetch_cases with ⟨odd, -⟩ | ⟨-, -, fetched⟩ | ⟨-, outside, -⟩
  · omega
  · exact fetched
  · omega

/-- A step of a running machine whose fetch and decoding succeed is the execution of the decoded instruction, with
nothing around it (`00_scope.md` R8). -/
theorem step_eq_exec {s : State} {w : InstrWord} {i : Instr} (running : s.core.halted = false)
    (fetched : s.core.fetch = .ok w) (decoded : decode s.params.policy w = .ok i) : step s = exec i s := by
  simp only [step, running, fetched, decoded, Bool.false_eq_true, if_false]

/-- Settles O40: the fetch answers the word of the two bytes, and the step executes what it decodes to. -/
theorem stepRunsTheDecodedInstruction : Obligations.StepRunsTheDecodedInstruction := by
  intro s i running even inRam decoded
  exact step_eq_exec running (State.fetch_inRam even inRam) decoded

end Sys2Proof.Machine
end

section
/-! PROOFS. The state (`10_state.md`): what a launch holds, and what every instruction and step keeps of the program
counter, the registers and the invariant. -/

namespace Sys2Proof.Machine

/-! ## What an effect does to each part of the state -/

/-- Where the program counter is after an instruction: in sequence, at the target of a branch, which is even or in
sequence, or, after HCF, where it was (`10_state.md` R16, `43_branch.md` R99, `44_hcf.md` R111). -/
theorem Effect.pc_cases {s t : State} {i : Instr} (h : Effect s i t) :
    t.pcNat = s.npcNat ∨ (i.isBranch = true ∧ t.pcNat % 2 = 0) ∨ (i = .hcf ∧ t.pcNat = s.pcNat) := by
  rw [State.npcNat_eq]
  cases h with
  | jump target branch even =>
    rcases even with even | rfl
    · exact .inr (.inl ⟨branch, even⟩)
    · exact .inl rfl
  | halt => exact .inr (.inr ⟨rfl, rfl⟩)
  | _ => exact .inl rfl

/-- An instruction that writes one register and goes on in sequence leaves the others (`10_state.md` R13). -/
theorem Core.setReg_advance_reg_other {v : Variant} (m : Core v) {r q : Reg} (y : Word v) (h : q ∉ [r]) :
    (m.setReg r y).advance.reg q = m.reg q := by
  rw [Core.advance_reg]
  exact m.setReg_reg_other y (List.ne_of_not_mem_cons h)

/-- An instruction changes no register outside its destination (`10_state.md` R13, R14). -/
theorem Effect.sameRegsBut_destination {s t : State} {i : Instr} (h : Effect s i t) :
    s.sameRegsBut t i.destination := by
  intro q hq
  cases h with
  | result r y written =>
    rw [written] at hq
    exact congrArg BitVec.toNat (s.core.setReg_advance_reg_other y hq)
  | character r b y left => exact congrArg BitVec.toNat ((s.core.setInChar left).setReg_advance_reg_other y hq)
  | integer r b y left => exact congrArg BitVec.toNat ((s.core.setInInt left).setReg_advance_reg_other y hq)
  | _ => rfl

/-- The memory after an instruction is the memory before with some bytes written inside RAM, none for an instruction
that is no store to RAM (`20_memory.md` R36 to R38). -/
theorem Effect.mem_eq_writeBytes {s t : State} {i : Instr} (h : Effect s i t) :
    ∃ a bytes, a + bytes.length ≤ s.params.variant.ramSize ∧ t.core.mem = s.core.mem.writeBytes a bytes := by
  cases h with
  | byteStore a b inRam => exact ⟨_, [lowByte (s.core.reg a)], inRam, rfl⟩
  | wordStore a b inRam =>
    exact ⟨_, bytesOfRegister (s.core.reg a), by rwa [bytesOfRegister_length], rfl⟩
  | _ => exact ⟨0, [], Nat.zero_le _, rfl⟩

/-! ## The invariant -/

/-- Bytes written below a bound leave a memory listed below it listed below it (`20_memory.md` R36). -/
theorem Memory.lt_of_mem_writeBytes {m : Memory} {a bound : Nat} {bytes : List Byte} (inside : a + bytes.length ≤ bound)
    (listed : ∀ c ∈ m, c.1 < bound) : ∀ c ∈ m.writeBytes a bytes, c.1 < bound := by
  intro c hc
  rcases Memory.mem_writeBytes hc with ⟨-, below⟩ | before
  · omega
  · exact listed c before

/-- An instruction leaves an even program counter even (`10_state.md` R18). -/
theorem Effect.pc_even {s t : State} {i : Instr} (h : Effect s i t) (even : s.pcNat % 2 = 0) : t.pcNat % 2 = 0 := by
  rcases h.pc_cases with next | ⟨-, target⟩ | ⟨-, same⟩
  · rw [next, State.npcNat_eq]
    exact s.core.npc_even even
  · exact target
  · rwa [same]

/-- An instruction keeps the invariant of the machine (`10_state.md` R18, `20_memory.md` R36 to R38). -/
theorem Effect.wf {s t : State} {i : Instr} (h : Effect s i t) (hs : s.wf) : t.wf := by
  obtain ⟨canonical, listed, even⟩ := hs
  obtain ⟨a, bytes, inside, written⟩ := h.mem_eq_writeBytes
  refine ⟨?_, ?_, h.pc_even even⟩
  · rw [written]
    exact Memory.wf_writeBytes canonical a bytes
  · rw [written, h.params_eq]
    exact Memory.lt_of_mem_writeBytes inside listed

/-- Settles O47: a step that answers a next state has run one instruction, and its effect keeps the invariant. -/
theorem everyStepKeepsTheInvariant : Obligations.EveryStepKeepsTheInvariant := by
  intro s t hs hstep
  obtain ⟨i, -, effect⟩ := step_effect hstep
  exact effect.wf hs

/-! ## The launch state -/

section Launch

variable (p : Params) (g : Vector (Word p.variant) 7) (m : Memory) (ic : Input Byte) (ii : Input Int)

/-- A run starts at address 0 (`10_state.md` R20). -/
@[simp] theorem State.launch_pcNat : (State.launch p g m ic ii).pcNat = 0 :=
  BitVec.toNat_zero

/-- A launch puts the host's values in `r0` to `r6` (`10_state.md` R24). -/
theorem State.launch_reg_castSucc (r : Fin 7) : (State.launch p g m ic ii).core.reg r.castSucc = g[r.val] :=
  Vector.getElem_push_lt r.isLt

/-- A launch puts `STACK_TOP` in `r7` (`10_state.md` R23). -/
theorem State.launch_reg_stackPointer :
    (State.launch p g m ic ii).core.reg .stackPointer = p.variant.stackTop :=
  Vector.getElem_push_eq

/-- A launch state meets the invariant when the memory the host chose does (`10_state.md` R18, R22). -/
theorem State.launch_wf (canonical : m.wf = true) (listed : ∀ c ∈ m, c.1 < p.variant.ramSize) :
    (State.launch p g m ic ii).wf :=
  ⟨canonical, listed, by rw [State.launch_pcNat]⟩

end Launch

/-- `STACK_TOP` in each variant (`10_state.md` R23). -/
theorem stackTop_toNat (v : Variant) : v.stackTop.toNat = if v = .w16 then 0xDFFE else 0x000FFFFC := by
  cases v <;> rfl

/-- The word at `STACK_TOP` is the last of RAM (`10_state.md` R23). -/
theorem stackTop_add_wordBytes (v : Variant) : v.stackTop.toNat + v.wordBytes = v.ramSize := by
  cases v <;> rfl

/-! ## The statements of `10_state.md` -/

/-- Settles O48: a launch starts at 0, and a step's instruction leaves an even program counter even. -/
theorem programCounterStaysEven : Obligations.ProgramCounterStaysEven := by
  refine ⟨fun p g m ic ii => by rw [State.launch_pcNat], fun s t even hstep => ?_⟩
  obtain ⟨i, -, effect⟩ := step_effect hstep
  exact effect.pc_even even

/-- Settles O52: every effect leaves the registers outside the destination. -/
theorem onlyTheDestinationChanges : Obligations.OnlyTheDestinationChanges :=
  fun _ _ _ h => (exec_effect h).sameRegsBut_destination

/-- An instruction without a destination leaves every register (`10_state.md` R14). -/
theorem regNat_eq_of_no_destination {i : Instr} {s t : State} (noDestination : i.destination = [])
    (h : exec i s = .next t) (r : Reg) : t.regNat r = s.regNat r :=
  (exec_effect h).sameRegsBut_destination r (by simp [noDestination])

/-- Settles O53: none of the six forms has a destination. -/
theorem storesAndBranchesWriteNoRegister : Obligations.StoresAndBranchesWriteNoRegister := by
  rintro s t a b k (h | h | h | h | h | h) r <;> exact regNat_eq_of_no_destination rfl h r

/-- Settles O54: of the three places the program counter can be, a branch and HCF have the other two. -/
theorem onlyBranchesLeaveTheSequence : Obligations.OnlyBranchesLeaveTheSequence := by
  intro i s t notBranch notHcf h
  rcases (exec_effect h).pc_cases with next | ⟨branch, -⟩ | ⟨hcf, -⟩
  · exact next
  · simp [notBranch] at branch
  · exact absurd hcf notHcf

/-- Settles O42: State.reset is a launch state, and every launch state starts at 0. -/
theorem resetStartsAtAddressZero : Obligations.ResetStartsAtAddressZero :=
  ⟨State.launch_pcNat _ _ _ _ _, State.launch_pcNat⟩

/-- Settles O43: `r7` of a launch state holds `STACK_TOP`, whose value and place are those of its variant. -/
theorem resetStackPointerIsTheLastWord : Obligations.ResetStackPointerIsTheLastWord := by
  intro p g m ic ii
  have top : (State.launch p g m ic ii).regNat .stackPointer = p.variant.stackTop.toNat :=
    congrArg BitVec.toNat (State.launch_reg_stackPointer p g m ic ii)
  rw [top]
  exact ⟨stackTop_toNat p.variant, stackTop_add_wordBytes p.variant⟩

/-- Settles O44: the registers by the seven given values before `r7`, every other field as the launch sets it. -/
theorem launchHoldsWhatTheHostChose : Obligations.LaunchHoldsWhatTheHostChose := by
  intro p g m ic ii
  exact ⟨State.launch_reg_castSucc p g m ic ii, fun _ => rfl, rfl, rfl, rfl, rfl⟩

/-- Settles O46: State.reset is the launch state whose memory lists nothing. -/
theorem resetMeetsTheInvariant : Obligations.ResetMeetsTheInvariant :=
  ⟨State.launch_wf _ _ _ _ _ rfl (by simp), State.launch_wf⟩

end Sys2Proof.Machine
end

section
/-! PROOFS. Memory (`20_memory.md`): what the accesses of LDB, STB, LDW and STW and the fetch answer by region and
alignment, what one width reads of what another has written, and what changes memory. -/

namespace Sys2Proof.Machine

/-! ## An instruction by what its access answers -/

/-- `perform` faults exactly when the operation does, with its fault (`60_exceptions.md` R165). -/
theorem State.perform_eq_fault_iff {s : State} {f : Core s.params.variant → Except Fault (Core s.params.variant)}
    {r : Fault} : s.perform f = .fault r ↔ f s.core = .error r := by
  unfold State.perform
  cases f s.core <;> simp

section Access

variable {s : State} {rst rsa rsb : Reg} {r : Fault}

/-- LDB faults exactly when its byte load does (`42_load_store.md` R86). -/
theorem exec_ldb_eq_fault_iff :
    exec (.ldb rst rsb) s = .fault r ↔ s.core.loadByte (s.core.dataAddress rsb) = .error r := by
  simp only [exec, execLdb, State.perform_eq_fault_iff]
  cases s.core.loadByte (s.core.dataAddress rsb) <;> simp

/-- STB faults exactly when its byte store does (`42_load_store.md` R87). -/
theorem exec_stb_eq_fault_iff :
    exec (.stb rsa rsb) s = .fault r ↔
      s.core.storeByte (s.core.dataAddress rsb) (lowByte (s.core.reg rsa)) = .error r := by
  simp only [exec, execStb, State.perform_eq_fault_iff]
  cases s.core.storeByte (s.core.dataAddress rsb) (lowByte (s.core.reg rsa)) <;> simp

/-- LDW faults exactly when its word load does (`42_load_store.md` R88). -/
theorem exec_ldw_eq_fault_iff :
    exec (.ldw rst rsb) s = .fault r ↔ s.core.loadWord (s.core.dataAddress rsb) = .error r := by
  simp only [exec, execLdw, State.perform_eq_fault_iff]
  cases s.core.loadWord (s.core.dataAddress rsb) <;> simp

/-- STW faults exactly when its word store does (`42_load_store.md` R89). -/
theorem exec_stw_eq_fault_iff :
    exec (.stw rsa rsb) s = .fault r ↔ s.core.storeWord (s.core.dataAddress rsb) (s.core.reg rsa) = .error r := by
  simp only [exec, execStw, State.perform_eq_fault_iff]
  cases s.core.storeWord (s.core.dataAddress rsb) (s.core.reg rsa) <;> simp

/-- LDW from an aligned word in RAM answers the state with that word in its destination (`42_load_store.md` R88). -/
theorem exec_ldw_inRam (aligned : s.core.dataAddress rsb % s.params.variant.wordBytes = 0)
    (inRam : s.core.dataAddress rsb + s.params.variant.wordBytes ≤ s.params.variant.ramSize) :
    exec (.ldw rst rsb) s = .next
      ⟨s.params, (s.core.setReg rst (s.core.mem.readWord _ (s.core.dataAddress rsb))).advance⟩ := by
  simp [exec, execLdw, State.perform, Core.loadWord, aligned, regionOf_ram inRam]

/-- STW to an aligned word in RAM answers the state with the register's word written there (`42_load_store.md` R89). -/
theorem exec_stw_inRam (aligned : s.core.dataAddress rsb % s.params.variant.wordBytes = 0)
    (inRam : s.core.dataAddress rsb + s.params.variant.wordBytes ≤ s.params.variant.ramSize) :
    exec (.stw rsa rsb) s = .next
      ⟨s.params, (s.core.setMem (s.core.mem.writeWord (s.core.dataAddress rsb) (s.core.reg rsa))).advance⟩ := by
  simp [exec, execStw, State.perform, Core.storeWord, aligned, regionOf_ram inRam]

end Access

/-- An access that begins above RAM and outside the device range is unmapped (`20_memory.md` R38). -/
theorem regionOf_unmapped {v : Variant} {addr n : Nat} (nonempty : 0 < n) (aboveRam : v.ramSize ≤ addr)
    (noDevice : addr < v.outCharAddr ∨ v.inIntAddr + v.wordBytes ≤ addr) : regionOf v addr n = .unmapped := by
  rcases regionOf_cases v addr n with ⟨-, inRam⟩ | ⟨-, -, low, high⟩ | ⟨unmapped, -⟩
  · omega
  · omega
  · exact unmapped

/-! ## What stops a step before an instruction executes -/

section Stops

variable {s : State}

/-- The fetch at an odd program counter faults, in RAM or not (`20_memory.md` R33). -/
theorem State.fetch_odd (odd : s.pcNat % 2 = 1) : s.core.fetch = .error (.misalignedFetch s.pcNat) :=
  if_pos odd

/-- The fetch at an even program counter outside RAM faults (`20_memory.md` R33). -/
theorem State.fetch_outsideRam (even : s.pcNat % 2 = 0) (outside : s.params.variant.ramSize < s.pcNat + 2) :
    s.core.fetch = .error (.unmappedAccess s.pcNat .fetch) := by
  obtain ⟨p, c⟩ := s
  simp only [State.pcNat_mk] at *
  rcases c.fetch_cases with ⟨odd, -⟩ | ⟨-, inRam, -⟩ | ⟨-, -, faulted⟩
  · omega
  · omega
  · exact faulted

/-- A running machine whose fetch faults stops with that fault (`60_exceptions.md` R164). -/
theorem step_of_fetch_error {r : Fault} (running : s.core.halted = false) (faulted : s.core.fetch = .error r) :
    step s = .fault r := by
  simp only [step, running, faulted, Bool.false_eq_true, if_false]

/-- A running machine stops at a word fetched that is no instruction (`30_encoding.md` R53). -/
theorem step_of_decode_error {w : InstrWord} {e : DecodeError} (running : s.core.halted = false)
    (fetched : s.core.fetch = .ok w) (rejected : decode s.params.policy w = .error e) :
    step s = .fault (.reservedInstruction w) := by
  simp only [step, running, fetched, rejected, Bool.false_eq_true, if_false]

end Stops

/-! ## One width read of what another has written -/

/-- The place of byte `k` of a word, counted from the top in bits and in bytes (`20_memory.md` R28). -/
theorem byte_offset_eq (v : Variant) (k : Nat) : v.width - 8 - 8 * k = 8 * (v.wordBytes - 1 - k) := by
  cases v <;> simp only [Variant.width, Variant.wordBytes] <;> omega

/-- Two neighbouring bytes of a word just written, read as an instruction word, are its slice of sixteen bits
(`20_memory.md` R27, R29). -/
theorem Memory.wordOfBytes_writeWord {v : Variant} (m : Memory) (a : Nat) (x : Word v) (i : Nat)
    (h : i + 1 < v.wordBytes) :
    wordOfBytes ((m.writeWord a x).read (a + i)) ((m.writeWord a x).read (a + i + 1)) =
      x.extractLsb' (8 * (v.wordBytes - 2 - i)) 16 := by
  rw [Memory.read_writeWord_at m a x i (by omega), Nat.add_assoc, Memory.read_writeWord_at m a x (i + 1) h,
    show 8 * (v.wordBytes - 1 - i) = 8 * (v.wordBytes - 2 - i) + 8 by omega,
    show v.wordBytes - 1 - (i + 1) = v.wordBytes - 2 - i by omega]
  exact append_slices x _ 8 8

/-- A byte of a word read after another byte write: the byte written at its own address, else as before
(`20_memory.md` R44). -/
theorem Memory.readWord_write_byte {v : Variant} (m : Memory) (a k : Nat) (b : Byte) {j : Nat} (h : j < v.wordBytes) :
    ((m.write (a + k) b).readWord v a).extractLsb' (8 * (v.wordBytes - 1 - j)) 8 =
      if j = k then b else (m.readWord v a).extractLsb' (8 * (v.wordBytes - 1 - j)) 8 := by
  rw [Memory.readWord_byte _ a j h, Memory.readWord_byte _ a j h]
  split
  · next same => rw [same, Memory.read_write_same]
  · next other => exact Memory.read_write_other m b (by omega)

/-- The upper 16 bits of a word as a number (`20_memory.md` R44). -/
theorem upperHalf_eq_ofNat {v : Variant} (x : Word v) :
    x.extractLsb' (8 * (v.wordBytes - 2)) 16 = BitVec.ofNat 16 (x.toNat / 2 ^ (v.width - 16)) := by
  have offset : v.width - 16 = 8 * (v.wordBytes - 2) := by cases v <;> rfl
  rw [offset, ← Nat.shiftRight_eq_div_pow]
  rfl

/-- The fetch from the address a word was written to answers the word's upper 16 bits (`20_memory.md` R33, R42). -/
theorem Core.fetch_writeWord {v : Variant} {c : Core v} {m : Memory} {x : Word v}
    (aligned : c.pc.toNat % v.wordBytes = 0) (inRam : c.pc.toNat + v.wordBytes ≤ v.ramSize)
    (written : c.mem = m.writeWord c.pc.toNat x) : c.fetch = .ok (x.extractLsb' (8 * (v.wordBytes - 2)) 16) := by
  obtain ⟨even, two⟩ : c.pc.toNat % 2 = 0 ∧ 2 ≤ v.wordBytes := by
    cases v <;> simp only [Variant.wordBytes] at * <;> omega
  rcases c.fetch_cases with ⟨odd, -⟩ | ⟨-, -, fetched⟩ | ⟨-, outside, -⟩
  · omega
  · rw [fetched, written]
    exact congrArg Except.ok (Memory.wordOfBytes_writeWord m c.pc.toNat x 0 (by omega))
  · omega

/-! ## The statements of `20_memory.md` -/

/-- Settles O23: the three clauses are the byte of a word written, the byte of a word read after a byte write, and two
neighbouring bytes of a word written. -/
theorem mixedWidthAccessesAgree : Obligations.MixedWidthAccessesAgree := by
  refine ⟨fun v m a k x hk => ?_, fun v m a k b _ j hj => ?_, fun m a x => ⟨?_, ?_⟩⟩
  · rw [byte_offset_eq]
    exact Memory.read_writeWord_at m a x k hk
  · rw [byte_offset_eq]
    exact Memory.readWord_write_byte m a k b hj
  · exact Memory.wordOfBytes_writeWord m a x 0 (by decide)
  · exact Memory.wordOfBytes_writeWord m a x 2 (by decide)

/-- Settles O24: STW leaves the base register, so LDW reads the word at the address it was written to. -/
theorem loadAfterStoreGivesTheWord : Obligations.LoadAfterStoreGivesTheWord := by
  intro s rsa rsb rst aligned inRam
  refine ⟨_, _, exec_stw_inRam aligned inRam, exec_ldw_inRam aligned inRam, ?_⟩
  rw [State.regNat_mk, Core.advance_reg, Core.setReg_reg_same]
  exact congrArg BitVec.toNat (Memory.readWord_writeWord s.core.mem _ (s.core.reg rsa))

/-- Settles O25: after the store the program counter is the address of the word, whose first two bytes are fetched. -/
theorem fetchSeesTheStore : Obligations.FetchSeesTheStore := by
  intro s rsa rsb aligned inRam next
  refine ⟨_, exec_stw_inRam aligned inRam, ?_⟩
  rw [State.npcNat_eq] at next
  rw [← next] at aligned inRam
  have written := congrArg (s.core.mem.writeWord · (s.core.reg rsa)) next.symm
  exact (Core.fetch_writeWord aligned inRam written).trans (congrArg Except.ok (upperHalf_eq_ofNat _))

/-- Settles O51: of the effects of an instruction, only those of STB and STW write memory. -/
theorem onlyStoresChangeMemory : Obligations.OnlyStoresChangeMemory := by
  intro i s t notStore h a
  cases exec_effect h with
  | byteStore => cases notStore
  | wordStore => cases notStore
  | _ => rfl

/-- Settles O30: alignment is the first check of a word access. -/
theorem misalignedWordAccessFaults : Obligations.MisalignedWordAccessFaults := by
  intro s r rsb misaligned
  exact ⟨exec_ldw_eq_fault_iff.mpr (if_pos misaligned), exec_stw_eq_fault_iff.mpr (if_pos misaligned)⟩

/-- Settles O31: no case of a byte access raises MisalignedAccess. -/
theorem byteAccessIsNeverMisaligned : Obligations.ByteAccessIsNeverMisaligned := by
  intro s r rsb a
  rw [Ne, Ne, exec_ldb_eq_fault_iff, exec_stb_eq_fault_iff]
  constructor
  · rcases s.core.loadByte_cases (s.core.dataAddress rsb) with ⟨-, e⟩ | ⟨-, e⟩ | ⟨-, e⟩ <;> simp [e]
  · rcases s.core.storeByte_cases (s.core.dataAddress rsb) (lowByte (s.core.reg r)) with ⟨-, e⟩ | ⟨-, e⟩ | ⟨-, e⟩ <;>
      simp [e]

/-- Settles O32: an access of a byte or of a word at such an address lies in the unmapped region. -/
theorem unmappedDataAccessFaults : Obligations.UnmappedDataAccessFaults := by
  intro s r rsb aboveRam noDevice
  have byte := regionOf_unmapped (n := 1) (by decide) aboveRam noDevice
  have word := regionOf_unmapped (n := s.params.variant.wordBytes) (by cases s.params.variant <;> decide) aboveRam noDevice
  rw [exec_ldb_eq_fault_iff, exec_stb_eq_fault_iff, exec_ldw_eq_fault_iff, exec_stw_eq_fault_iff]
  refine ⟨?_, ?_, fun aligned => ⟨?_, ?_⟩⟩
  · simp only [Core.loadByte, byte]
  · simp only [Core.storeByte, byte]
  · simp [Core.loadWord, aligned, word]
  · simp [Core.storeWord, aligned, word]

/-- Settles O41: the fetch checks the parity, then the region, and the decoder sees only what was fetched. -/
theorem stepFaultsInOrder : Obligations.StepFaultsInOrder := by
  intro s running
  refine ⟨fun odd => ?_, fun even outside => ?_, fun even inRam ⟨e, rejected⟩ => ?_⟩
  · exact step_of_fetch_error running (State.fetch_odd odd)
  · exact step_of_fetch_error running (State.fetch_outsideRam even outside)
  · exact step_of_decode_error running (State.fetch_inRam even inRam) rejected

end Sys2Proof.Machine
end

section
/-! PROOFS. Encoding (`30_encoding.md`): what the decoder answers on the words of the two formats, on HCF's word and on
the words of a row of the table, and which words decode. -/

namespace Sys2Proof

/-! ## Fixed fields and branches with `Op2` = 00 (R52, R55) -/

section Policies

variable {p : Policy} {f : Reg} {i j : Instr}

/-- A fixed field of 000 is in order under every policy. -/
theorem requireFixed_of_zero (zero : f = 0) : requireFixed p f i = .ok i := by
  simp [requireFixed, zero]

theorem requireFixed_of_ignore (ignored : p.fixedField = .ignore) : requireFixed p f i = .ok i := by
  simp [requireFixed, ignored]

theorem requireFixed_of_fault (checked : p.fixedField = .fault) (nonzero : f ≠ 0) :
    requireFixed p f i = .error .fixedFieldNonZero := by
  simp [requireFixed, checked, nonzero]

/-- A word that is accepted has 000 in its fixed field, or a policy that does not decode the field. -/
theorem requireFixed_eq_ok_iff :
    requireFixed p f i = .ok j ↔ (f = 0 ∨ p.fixedField = .ignore) ∧ i = j := by
  unfold requireFixed
  split <;> simp [*]

theorem branchAlias_of_true (accepted : p.branchOp2Alias = true) : branchAlias p f i = requireFixed p f i := by
  simp [branchAlias, accepted]

theorem branchAlias_of_false (rejected : p.branchOp2Alias = false) : branchAlias p f i = .error .branchOp2Zero := by
  simp [branchAlias, rejected]

theorem branchAlias_eq_ok_iff :
    branchAlias p f i = .ok j ↔ p.branchOp2Alias = true ∧ requireFixed p f i = .ok j := by
  unfold branchAlias
  split <;> simp [*]

end Policies

/-! ## The decoder on the words of each format (R51) -/

section Formats

variable (p : Policy) {op : BitVec 4} {op2 : BitVec 2} (rst rsa rsb : Reg) (k : Byte) {w : InstrWord}

theorem decode_of_immField_one (imm : immField w = 1#1) :
    decode p w = decodeImmediate (opcodeField w) (rstField w) (immediateField w) := by
  simp [decode, imm]

theorem decode_of_immField_zero (imm : immField w = 0#1) (notHcf : w ≠ hcfWord) :
    decode p w = decodeRegister p (opcodeField w) (rstField w) (rsaField w) (rsbField w) (op2Field w) := by
  simp [decode, imm, notHcf]

theorem decode_formatI : decode p (formatI op rst k) = decodeImmediate op rst k := by
  simp [decode_of_immField_one]

theorem decode_formatR (notHcf : op2 ≠ 0b11#2 ∨ op ≠ 0b0000#4) :
    decode p (formatR op rst rsa rsb op2) = decodeRegister p op rst rsa rsb op2 := by
  simp [decode_of_immField_zero, formatR_ne_hcfWord rst rsa rsb notHcf]

theorem decode_hcfWord_of_halt (halts : p.hcf = .halt) : decode p hcfWord = .ok .hcf := by
  simp [decode, halts, show immField hcfWord ≠ 1#1 by decide]

end Formats

/-- Settles O1: each word the encoder writes is of a format, whose decoder finds the constructor again, with any fixed
field 000. -/
theorem decodeOfEncodeIsIdentity : Obligations.DecodeOfEncodeIsIdentity := by
  intro p i wellFormed
  cases i with
  | andI | orI | xorI | sltI | sltuI | addI | subI | ldr | ldc | bezI | bnzI => exact decode_formatI ..
  | andR | orR | xorR | sltR | sltuR | addR | subR => exact decode_formatR _ _ _ _ (.inl (by decide))
  | lsr | asr | ldb | stb | ldw | stw =>
    exact (decode_formatR _ _ _ _ (.inl (by decide))).trans (requireFixed_of_zero rfl)
  | bezR | bnzR => exact (decode_formatR _ _ _ _ (.inr (by decide))).trans (requireFixed_of_zero rfl)
  | hcf => exact decode_hcfWord_of_halt p (of_decide_eq_true wellFormed)

/-! ## What a word that decodes means -/

section Inversion

variable {p : Policy} {op : BitVec 4} {op2 : BitVec 2} {rst rsa rsb : Reg} {k : Byte} {w : InstrWord} {i : Instr}

/-- A field whose value is known is the literal of that value. -/
theorem eq_ofNat_of_toNat_eq {n m : Nat} {x : BitVec n} (h : x.toNat = m) : x = BitVec.ofNat n m := by
  subst h
  simp

/-- A word of format I that decodes is the encoder's (R47). -/
theorem encode_of_decodeImmediate (h : decodeImmediate op rst k = .ok i) : encode i = formatI op rst k := by
  unfold decodeImmediate at h
  split at h <;> cases h
  all_goals
    next opcode =>
      rw [eq_ofNat_of_toNat_eq opcode]
      rfl

theorem decodeImmediate_ne_hcf : decodeImmediate op rst k ≠ .ok .hcf := by
  intro h
  unfold decodeImmediate at h
  split at h <;> cases h

/-- Where fixed fields are checked and branches have one spelling, a word of format R that decodes is the encoder's
(R46, R52, R55). -/
theorem encode_of_decodeRegister (checked : p.fixedField = .fault) (oneSpelling : p.branchOp2Alias = false)
    (h : decodeRegister p op rst rsa rsb op2 = .ok i) : encode i = formatR op rst rsa rsb op2 := by
  unfold decodeRegister at h
  split at h <;>
    simp only [requireFixed_eq_ok_iff, branchAlias_of_false oneSpelling, checked, reduceCtorEq, or_false,
      Except.ok.injEq] at h
  case h_1 | h_2 | h_3 | h_4 | h_5 | h_6 | h_7 =>
    rw [← h, eq_ofNat_of_toNat_eq ‹op.toNat = _›, eq_ofNat_of_toNat_eq ‹op2.toNat = _›]
    rfl
  case h_8 | h_9 | h_10 | h_11 | h_12 | h_13 | h_14 | h_15 =>
    obtain ⟨fixedZero, same⟩ := h
    rw [← same, fixedZero, eq_ofNat_of_toNat_eq ‹op.toNat = _›, eq_ofNat_of_toNat_eq ‹op2.toNat = _›]
    rfl

theorem decodeRegister_ne_hcf : decodeRegister p op rst rsa rsb op2 ≠ .ok .hcf := by
  intro h
  unfold decodeRegister at h
  split at h <;> simp [requireFixed_eq_ok_iff, branchAlias_eq_ok_iff] at h

/-- What the decoder answers, said once: a word of format I, HCF's word where that is an instruction, or any other word of
format R (R51, R54). -/
theorem decode_cases (p : Policy) (w : InstrWord) :
    (immField w = 1#1 ∧ decode p w = decodeImmediate (opcodeField w) (rstField w) (immediateField w)) ∨
    ((w = hcfWord ∧ p.hcf = .halt) ∧ decode p w = .ok .hcf) ∨
    (immField w = 0#1 ∧ ¬ (w = hcfWord ∧ p.hcf = .halt) ∧
      decode p w = decodeRegister p (opcodeField w) (rstField w) (rsaField w) (rsbField w) (op2Field w)) := by
  unfold decode
  split
  · next imm => exact .inl ⟨imm, rfl⟩
  · next imm =>
    split
    · next hcf => exact .inr (.inl ⟨hcf, rfl⟩)
    · next notHcf => exact .inr (.inr ⟨by bv_omega, notHcf, rfl⟩)

end Inversion

/-- Settles O2: an accepted word is the encoder's word of its own fields, which is the word itself. -/
theorem encodeOfDecodeIsTheWord : Obligations.EncodeOfDecodeIsTheWord := by
  intro p w i checked oneSpelling decoded
  rcases decode_cases p w with ⟨imm, e⟩ | ⟨⟨rfl, -⟩, e⟩ | ⟨imm, -, e⟩ <;> rw [e] at decoded
  · rw [encode_of_decodeImmediate decoded, formatI_of_fields w imm]
  · cases decoded
    rfl
  · rw [encode_of_decodeRegister checked oneSpelling decoded, formatR_of_fields w imm]

/-- Settles O5: the decoders of the two formats never answer HCF. -/
theorem hcfIsOneWord : Obligations.HcfIsOneWord := by
  intro p w
  constructor
  · intro decoded
    rcases decode_cases p w with ⟨-, e⟩ | ⟨hcf, -⟩ | ⟨-, -, e⟩
    · exact absurd (e.symm.trans decoded) decodeImmediate_ne_hcf
    · exact hcf
    · exact absurd (e.symm.trans decoded) decodeRegister_ne_hcf
  · rintro ⟨rfl, halts⟩
    exact decode_hcfWord_of_halt p halts

/-! ## The rows of the opcode table (R50) -/

section Rows

variable {p : Policy} {w mask pattern : InstrWord} {r q : OpcodeRow} {i : Instr}

theorem OpcodeRow.admits_iff : r.admits w = true ↔ w &&& r.mask = r.pattern := by
  simp [OpcodeRow.admits]

/-- A field that the mask covers holds what it holds in the pattern. -/
theorem extract_eq_of_and_eq {lo n : Nat} (h : w &&& mask = pattern)
    (covered : mask.extractLsb' lo n = BitVec.allOnes n) : w.extractLsb' lo n = pattern.extractLsb' lo n := by
  rw [← h, BitVec.extractLsb'_and, covered, BitVec.and_allOnes]

/-- A register field that the mask covers and the pattern leaves 000 is a fixed field (R52). -/
theorem reg_eq_zero_of_and_eq {lo : Nat} (h : w &&& mask = pattern) (covered : mask.extractLsb' lo 3 = BitVec.allOnes 3)
    (zero : pattern.extractLsb' lo 3 = 0#3) : (w.extractLsb' lo 3).toFin = (0 : Reg) := by
  rw [extract_eq_of_and_eq h covered, zero]
  rfl

/-- A word that matches in `Opcode` and `Imm` decodes as format I with that opcode. -/
theorem decode_of_immediateMask (h : w &&& 0xF800#16 = pattern) (imm : immField pattern = 1#1) :
    decode p w = decodeImmediate (opcodeField pattern) (rstField w) (immediateField w) := by
  have opcode : opcodeField w = opcodeField pattern := extract_eq_of_and_eq h (by decide)
  have immediate : immField w = immField pattern := extract_eq_of_and_eq h (by decide)
  rw [decode_of_immField_one p (immediate.trans imm), opcode]

/-- A word that matches in `Opcode`, `Imm` and `Op2` decodes as format R with those, but for HCF's. -/
theorem decode_of_registerMask (h : w &&& mask = pattern) (covered : mask &&& 0xF803#16 = 0xF803#16)
    (imm : immField pattern = 0#1) (notHcf : op2Field pattern ≠ 0b11#2 ∨ opcodeField pattern ≠ 0b0000#4) :
    decode p w =
      decodeRegister p (opcodeField pattern) (rstField w) (rsaField w) (rsbField w) (op2Field pattern) := by
  have matched : w &&& 0xF803#16 = pattern &&& 0xF803#16 := by rw [← h, BitVec.and_assoc, covered]
  have patternField {lo n : Nat} (full : (0xF803#16).extractLsb' lo n = BitVec.allOnes n) :
      w.extractLsb' lo n = pattern.extractLsb' lo n := by
    rw [extract_eq_of_and_eq matched full, BitVec.extractLsb'_and, full, BitVec.and_allOnes]
  have opcode : opcodeField w = opcodeField pattern := patternField (by decide)
  have immediate : immField w = immField pattern := patternField (by decide)
  have opcode2 : op2Field w = op2Field pattern := patternField (by decide)
  have ne : w ≠ hcfWord := by
    rintro rfl
    rcases notHcf with differs | differs
    · exact differs opcode2.symm
    · exact differs opcode.symm
  rw [decode_of_immField_zero p (immediate.trans imm) ne, opcode, opcode2]

/-- A word that an instruction's row admits decodes to an instruction of that row, under every policy that has the row:
the mask covers the fixed fields and all that selects the row. -/
theorem decode_of_row_admits (wellFormed : i.wellFormed p = true) (admitted : i.row.admits w = true) :
    ∃ j, decode p w = .ok j ∧ j.row = i.row := by
  have matched := OpcodeRow.admits_iff.mp admitted
  cases i with simp only [Instr.row] at matched
  | andI | orI | xorI | sltI | sltuI | addI | subI | ldr | ldc | bezI | bnzI =>
    exact ⟨_, decode_of_immediateMask matched (by decide), rfl⟩
  | andR | orR | xorR | sltR | sltuR | addR | subR =>
    exact ⟨_, decode_of_registerMask matched (by decide) (by decide) (by decide), rfl⟩
  | lsr | asr | ldb | ldw | stb | stw | bezR | bnzR =>
    exact ⟨_, (decode_of_registerMask matched (by decide) (by decide) (by decide)).trans
      (requireFixed_of_zero (reg_eq_zero_of_and_eq matched (by decide) (by decide))), rfl⟩
  | hcf =>
    obtain rfl : w = hcfWord := (BitVec.and_allOnes (x := w)).symm.trans matched
    exact ⟨_, decode_hcfWord_of_halt p (of_decide_eq_true wellFormed), rfl⟩

/-- The mask of format I keeps `Opcode` and `Imm`. -/
theorem formatI_and_mask (op : BitVec 4) (rst : Reg) (k : Byte) : formatI op rst k &&& 0xF800#16 = formatI op 0 0 := by
  change (op ++ 1#1 ++ (BitVec.ofFin rst : BitVec 3) ++ k) &&& (BitVec.allOnes 4 ++ BitVec.allOnes 1 ++ 0#3 ++ 0#8) = _
  rw [BitVec.and_append, BitVec.and_append, BitVec.and_append]
  simp only [BitVec.and_allOnes, BitVec.and_zero]
  rfl

/-- A mask of format R that covers a register field only where the field is 000 keeps `Opcode`, `Imm` and `Op2`. -/
theorem formatR_and_mask (op : BitVec 4) {rst rsa rsb : Reg} (op2 : BitVec 2) (maskRst maskRsA maskRsB : BitVec 3)
    (dst : BitVec.ofFin rst &&& maskRst = 0#3) (srcA : BitVec.ofFin rsa &&& maskRsA = 0#3)
    (srcB : BitVec.ofFin rsb &&& maskRsB = 0#3) :
    formatR op rst rsa rsb op2 &&& (0b1111#4 ++ 1#1 ++ maskRst ++ maskRsA ++ maskRsB ++ 0b11#2) =
      formatR op 0 0 0 op2 := by
  change
    (op ++ 0#1 ++ (BitVec.ofFin rst : BitVec 3) ++ (BitVec.ofFin rsa : BitVec 3) ++ (BitVec.ofFin rsb : BitVec 3) ++ op2)
      &&& (BitVec.allOnes 4 ++ BitVec.allOnes 1 ++ maskRst ++ maskRsA ++ maskRsB ++ BitVec.allOnes 2) = _
  rw [BitVec.and_append, BitVec.and_append, BitVec.and_append, BitVec.and_append, BitVec.and_append, dst, srcA, srcB]
  simp only [BitVec.and_allOnes]
  rfl

/-- The word the encoder writes is of the instruction's own row. -/
theorem Instr.row_admits_encode (i : Instr) : i.row.admits (encode i) = true := by
  rw [OpcodeRow.admits_iff]
  cases i with
  | andI | orI | xorI | sltI | sltuI | addI | subI | ldr | ldc | bezI | bnzI => exact formatI_and_mask _ _ _
  | andR | orR | xorR | sltR | sltuR | addR | subR =>
    exact formatR_and_mask _ _ 0#3 0#3 0#3 (by simp) (by simp) (by simp)
  | lsr | asr => exact formatR_and_mask _ _ 0#3 0#3 0b111#3 (by simp) (by simp) rfl
  | ldb | ldw => exact formatR_and_mask _ _ 0#3 0b111#3 0#3 (by simp) rfl (by simp)
  | stb | stw | bezR | bnzR => exact formatR_and_mask _ _ 0b111#3 0#3 0#3 rfl (by simp) (by simp)
  | hcf => decide

theorem Instr.row_mem_opcodeTable (notHcf : i ≠ .hcf) : i.row ∈ opcodeTable := by
  cases i with
  | hcf => exact absurd rfl notHcf
  | _ => simp [Instr.row, opcodeTable]

/-- A row's match is itself a word of an instruction of the row. -/
theorem decode_pattern_row : ∀ r ∈ opcodeTable, (decode .standard r.pattern).toOption.map Instr.row = some r := by
  decide

theorem exists_instr_of_row (member : r ∈ opcodeTable) : ∃ i : Instr, i.row = r := by
  obtain ⟨i, -, ofRow⟩ := Option.map_eq_some_iff.mp (decode_pattern_row r member)
  exact ⟨i, ofRow⟩

/-- Rows that differ in a bit both masks cover have no word in common. -/
theorem OpcodeRow.disjoint_of_patterns (differ : r.pattern &&& q.mask ≠ q.pattern &&& r.mask) (w : InstrWord) :
    ¬ (r.admits w = true ∧ q.admits w = true) := by
  rintro ⟨hr, hq⟩
  rw [OpcodeRow.admits_iff] at hr hq
  apply differ
  rw [← hr, ← hq, BitVec.and_assoc, BitVec.and_assoc, BitVec.and_comm r.mask]

theorem opcodeTable_patterns_differ :
    opcodeTable.Pairwise fun r q => r.pattern &&& q.mask ≠ q.pattern &&& r.mask := by
  decide

end Rows

theorem Instr.wellFormed_standard (i : Instr) : i.wellFormed .standard = true := by
  cases i <;> rfl

/-- Settles O3: a word of a row decodes to an instruction of the row; conversely a word that decodes is the encoder's
(O2), which the row of its instruction admits. -/
theorem wordIsOfRowExactlyByItsMask : Obligations.WordIsOfRowExactlyByItsMask := by
  refine ⟨fun w r member => ⟨fun admitted => ?_, ?_⟩, fun w i _ => ?_, rfl, ?_⟩
  · obtain ⟨i, rfl⟩ := exists_instr_of_row member
    exact decode_of_row_admits i.wellFormed_standard admitted
  · rintro ⟨i, decoded, rfl⟩
    rw [← encodeOfDecodeIsTheWord _ w i rfl rfl decoded]
    exact i.row_admits_encode
  · exact or_iff_not_imp_left.mpr Instr.row_mem_opcodeTable
  · exact opcodeTable_patterns_differ.imp OpcodeRow.disjoint_of_patterns

/-- Settles O4: a word that decodes is HCF's (O5) or of a row (O3), and the words of the rows and HCF's decode. -/
theorem reservedWordsAreThoseOfNoRow : Obligations.ReservedWordsAreThoseOfNoRow := by
  intro w
  obtain ⟨ofRow, rowOfDecoded, -, -⟩ := wordIsOfRowExactlyByItsMask
  constructor
  · rintro ⟨e, rejected⟩
    refine ⟨?_, fun r member => Bool.eq_false_iff.mpr fun admitted => ?_⟩
    · rintro rfl
      rw [decode_hcfWord_of_halt _ rfl] at rejected
      cases rejected
    · obtain ⟨i, decoded, -⟩ := (ofRow w r member).mp admitted
      rw [decoded] at rejected
      cases rejected
  · rintro ⟨notHcf, noRow⟩
    cases decoded : decode .standard w with
    | error e => exact ⟨e, rfl⟩
    | ok i =>
      rcases rowOfDecoded w i decoded with rfl | member
      · exact absurd ((hcfIsOneWord _ w).mp decoded).1 notHcf
      · exact absurd ((ofRow w _ member).mpr ⟨i, decoded, rfl⟩) (by simp [noRow _ member])

/-! ## The policies, and words written out -/

/-- The words of the eight rows with a fixed field, whatever it holds, are decoded by what R52 says of the field. -/
theorem decode_fixedField (p : Policy) (a b f : Reg) :
    decode p (formatR 0b0000#4 a b f 0b01#2) = requireFixed p f (.lsr a b) ∧
    decode p (formatR 0b0001#4 a b f 0b01#2) = requireFixed p f (.asr a b) ∧
    decode p (formatR 0b0000#4 a f b 0b10#2) = requireFixed p f (.ldb a b) ∧
    decode p (formatR 0b0100#4 a f b 0b10#2) = requireFixed p f (.ldw a b) ∧
    decode p (formatR 0b0001#4 f a b 0b10#2) = requireFixed p f (.stb a b) ∧
    decode p (formatR 0b0101#4 f a b 0b10#2) = requireFixed p f (.stw a b) ∧
    decode p (formatR 0b1010#4 f a b 0b11#2) = requireFixed p f (.bezR a b) ∧
    decode p (formatR 0b1011#4 f a b 0b11#2) = requireFixed p f (.bnzR a b) := by
  refine ⟨?_, ?_, ?_, ?_, ?_, ?_, ?_, ?_⟩ <;> exact decode_formatR _ _ _ _ (by decide)

/-- Settles O6: the fixed field decides each of the eight rows by the policy alone. -/
theorem fixedFieldPolicyDecides : Obligations.FixedFieldPolicyDecides := by
  intro p a b f
  constructor
  · intro ignored
    simpa only [requireFixed_of_ignore ignored] using decode_fixedField p a b f
  · intro checked nonzero
    simpa only [requireFixed_of_fault checked nonzero] using decode_fixedField p a b f

/-- Settles O7: such a word is decoded by what R55 says of it, and its fixed field is 000 where it is a branch. -/
theorem branchAliasIsAParameter : Obligations.BranchAliasIsAParameter := by
  intro p a b
  have bez (f : Reg) : decode p (formatR 0b1010#4 f a b 0b00#2) = branchAlias p f (.bezR a b) :=
    decode_formatR _ _ _ _ (by decide)
  have bnz (f : Reg) : decode p (formatR 0b1011#4 f a b 0b00#2) = branchAlias p f (.bnzR a b) :=
    decode_formatR _ _ _ _ (by decide)
  refine ⟨fun accepted => ?_, fun rejected f => ?_⟩
  · rw [bez, bnz, branchAlias_of_true accepted, branchAlias_of_true accepted]
    exact ⟨requireFixed_of_zero rfl, requireFixed_of_zero rfl⟩
  · rw [bez, bnz]
    exact ⟨branchAlias_of_false rejected, branchAlias_of_false rejected⟩

/-- Settles O8: ten words, each run through the decoder. -/
theorem exampleWordsDecode : Obligations.ExampleWordsDecode := by
  unfold Obligations.ExampleWordsDecode
  decide

end Sys2Proof

/-! ## The all-zero word (R56) -/

namespace Sys2Proof.Machine

/-- Writing a register with its own value changes nothing (`10_state.md` R11). -/
theorem Core.setReg_reg_self {v : Variant} (m : Core v) (r : Reg) : m.setReg r (m.reg r) = m := by
  simp [Core.setReg, Core.reg]

/-- `and r0,r0,r0` writes `r0` with its own value and goes on (`40_computation.md` R61). -/
theorem exec_andR_zero (s : State) : exec (.andR 0 0 0) s = .next ⟨s.params, s.core.advance⟩ := by
  have written :
      exec (.andR 0 0 0) s = .next ⟨s.params, (s.core.setReg 0 (s.core.reg 0 &&& s.core.reg 0)).advance⟩ := rfl
  rw [written, BitVec.and_self, Core.setReg_reg_self]

/-- Settles O9: 0x0000 is what the encoder writes for `and r0,r0,r0` (O1), and a step at two zero bytes executes it. -/
theorem allZeroWordIsANoOperation : Obligations.AllZeroWordIsANoOperation := by
  have decoded (p : Policy) : decode p 0x0000#16 = .ok (.andR 0 0 0) := decodeOfEncodeIsIdentity p (.andR 0 0 0) rfl
  refine ⟨decoded, rfl, fun v => rfl, exec_andR_zero, fun s running even inRam first second => ?_⟩
  have fetched := State.fetch_inRam even inRam
  rw [first, second] at fetched
  rw [step_eq_exec running fetched (decoded _), exec_andR_zero]

end Sys2Proof.Machine
end

section
/-! PROOFS. Computation (`40_computation.md`): the ALU's signals, the value each instruction writes as a number, and
which instructions can fault. -/

namespace Sys2Proof.Machine

/-! ## The signals of the ALU (R77) -/

section Signals

variable {v : Variant} (a b : Word v)

/-- `V` says exactly that the difference of the signed values does not fit in a word. -/
theorem aluOverflow_eq_ssubOverflow : aluOverflow a b = BitVec.ssubOverflow a b := by
  rw [BitVec.ssubOverflow_eq, aluOverflow, aluDifference]
  cases a.msb <;> cases b.msb <;> simp

/-- Without overflow the sign of the difference compares the operands. -/
theorem aluNegative_of_no_overflow (fits : aluOverflow a b = false) :
    aluNegative a b = decide (a.toInt < b.toInt) := by
  rw [aluOverflow_eq_ssubOverflow] at fits
  have exact_difference := BitVec.toInt_sub_of_not_ssubOverflow (Bool.eq_false_iff.mp fits)
  rw [aluNegative, aluDifference, BitVec.msb_eq_toInt, exact_difference, decide_eq_decide]
  omega

/-- With overflow the operands differ in sign and the difference has the sign of the second: its opposite compares
them. -/
theorem aluNegative_of_overflow (wraps : aluOverflow a b = true) :
    aluNegative a b = !decide (a.toInt < b.toInt) := by
  simp only [aluOverflow, Bool.and_eq_true, bne_iff_ne, ne_eq] at wraps
  obtain ⟨signs, flipped⟩ := wraps
  have sign_of_second : aluNegative a b = b.msb := by
    rw [aluNegative, Bool.eq_not_of_ne flipped, Bool.eq_not_of_ne signs, Bool.not_not]
  rw [BitVec.msb_eq_toInt, BitVec.msb_eq_toInt, decide_eq_decide] at signs
  rw [sign_of_second, BitVec.msb_eq_toInt, ← decide_not, decide_eq_decide]
  omega

end Signals

/-- Settles O18: `V` is 0 where the sign of the difference is right and 1 where it is wrong; the borrow is the sign of
the exact difference. -/
theorem aluSignalsComputeTheComparisons : Obligations.AluSignalsComputeTheComparisons := by
  refine fun v a b => ⟨?_, ?_⟩
  · cases overflow : aluOverflow a b with
    | false => rw [aluNegative_of_no_overflow a b overflow, Bool.xor_false]
    | true => rw [aluNegative_of_overflow a b overflow, Bool.xor_true, Bool.not_not]
  · rw [aluBorrow, decide_eq_decide]
    omega

/-! ## Which instructions can fault (R60) -/

/-- An instruction that is no store, branch or load and not HCF is a computation or a shift: it writes one register and
goes on (R60, `41_shift.md` R80). -/
theorem exec_writes_register (i : Instr) (s : State) :
    (∃ r y, exec i s = .next ⟨s.params, (s.core.setReg r y).advance⟩) ∨
    i.isStore = true ∨ i.isBranch = true ∨ (∃ a b, i = .ldb a b ∨ i = .ldw a b) ∨ i = .hcf := by
  cases i with
  | stb | stw => exact .inr (.inl rfl)
  | bezR | bezI | bnzR | bnzI => exact .inr (.inr (.inl rfl))
  | ldb a b => exact .inr (.inr (.inr (.inl ⟨a, b, .inl rfl⟩)))
  | ldw a b => exact .inr (.inr (.inr (.inl ⟨a, b, .inr rfl⟩)))
  | hcf => exact .inr (.inr (.inr (.inr rfl)))
  | _ => exact .inl ⟨_, _, rfl⟩

/-- HCF faults exactly with `HCF_POLICY = reserved`, as the reserved word it then is (`44_hcf.md` R111). -/
theorem exec_hcf_eq_fault_iff {s : State} {f : Fault} :
    exec .hcf s = .fault f ↔ s.params.policy.hcf = .reserved ∧ f = .reservedInstruction hcfWord := by
  simp only [exec, execHcf, State.perform_eq_fault_iff]
  cases s.params.policy.hcf <;> simp [eq_comm]

/-- Settles O56: a computation or a shift answers a next state, and HCF faults only when reserved. -/
theorem onlyAccessesAndBranchesFault : Obligations.OnlyAccessesAndBranchesFault := by
  intro i s f faulted
  rcases exec_writes_register i s with ⟨r, y, completed⟩ | store | branch | load | rfl
  · rw [completed] at faulted
    cases faulted
  · exact .inl store
  · exact .inr (.inl branch)
  · exact .inr (.inr (.inl load))
  · exact .inr (.inr (.inr ⟨rfl, (exec_hcf_eq_fault_iff.mp faulted).1⟩))

/-! ## The values written, as numbers -/

section Values

variable {v : Variant} (a b : Word v) (k : Byte)

/-- A sign-extended immediate as a natural number (`30_encoding.md` R48). -/
theorem sextImm_toNat_eq (v : Variant) (k : Byte) : (sextImm v k).toNat = (k.toInt % 2 ^ v.width).toNat := by
  rw [← sextImm_toNat, Int.toNat_natCast]

/-- SLT's value (R67, R68). -/
theorem conditionWord_lessSigned_toNat :
    (conditionWord v (lessSigned a b)).toNat = if a.toInt < b.toInt then 1 else 0 := by
  simp only [conditionWord_toNat, lessSigned, decide_eq_true_eq]

/-- SLTU's value (R69, R70). -/
theorem conditionWord_lessUnsigned_toNat :
    (conditionWord v (lessUnsigned a b)).toNat = if a.toNat < b.toNat then 1 else 0 := by
  simp only [conditionWord_toNat, lessUnsigned, decide_eq_true_eq]

/-- The value of SLT with an immediate (R68). -/
theorem conditionWord_lessSigned_sextImm_toNat :
    (conditionWord v (lessSigned a (sextImm v k))).toNat = if a.toInt < k.toInt then 1 else 0 := by
  rw [conditionWord_lessSigned_toNat, sextImm_toInt]

/-- The value of SLTU with an immediate: its residue modulo `2^W` is what is compared (R70). -/
theorem conditionWord_lessUnsigned_sextImm_toNat :
    (conditionWord v (lessUnsigned a (sextImm v k))).toNat = if (a.toNat : Int) < k.toInt % 2 ^ v.width then 1 else 0 := by
  simp only [conditionWord_lessUnsigned_toNat, ← sextImm_toNat, Int.ofNat_lt]

/-- The value of ADD with an immediate (R72, R79). -/
theorem add_sextImm_toNat : ((a + sextImm v k).toNat : Int) = ((a.toNat : Int) + k.toInt) % 2 ^ v.width := by
  rw [BitVec.toNat_add]
  push_cast
  rw [sextImm_toNat, Int.add_emod_emod]

/-- SUB's value as an integer (R73, R79). -/
theorem sub_toNat : ((a - b).toNat : Int) = ((a.toNat : Int) - (b.toNat : Int)) % 2 ^ v.width := by
  rw [BitVec.toNat_sub]
  push_cast [Nat.cast_sub b.isLt.le]
  rw [sub_add_eq_add_sub, add_sub_assoc, Int.add_emod_left]

/-- The value of SUB with an immediate (R74, R79). -/
theorem sub_sextImm_toNat : ((a - sextImm v k).toNat : Int) = ((a.toNat : Int) - k.toInt) % 2 ^ v.width := by
  rw [sub_toNat, sextImm_toNat, Int.sub_emod_emod]

end Values

/-! ## The statements about results (R60) -/

/-- A computation completes with what follows from the number in its destination, read either way. -/
theorem completes_of_value {s : State} {i : Instr} {rst : Reg} {P : State → Prop} {y : Word s.params.variant}
    (h : exec i s = .next ⟨s.params, (s.core.setReg rst y).advance⟩)
    (value : ∀ t : State, t.regNat rst = y.toNat → t.regInt rst = y.toInt → P t) : s.completes i [rst] P := by
  have written : (s.core.setReg rst y).advance.reg rst = y := s.core.setReg_reg_same rst y
  exact completes_of_result y h (value _ (congrArg BitVec.toNat written) (congrArg BitVec.toInt written))

/-- Settles O10: the bits of the result are those of the two numbers combined. -/
theorem bitwiseRegisterResults : Obligations.BitwiseRegisterResults := by
  intro s rst rsa rsb
  refine ⟨?_, ?_, ?_⟩
  · exact completes_of_value rfl fun _ nat _ => nat.trans (BitVec.toNat_and _ _)
  · exact completes_of_value rfl fun _ nat _ => nat.trans (BitVec.toNat_or _ _)
  · exact completes_of_value rfl fun _ nat _ => nat.trans (BitVec.toNat_xor _ _)

/-- Settles O11: as O10, with the immediate's number by its extension. -/
theorem bitwiseImmediateResults : Obligations.BitwiseImmediateResults := by
  intro s rst k
  refine ⟨?_, ?_, ?_⟩
  · refine completes_of_value rfl fun _ nat _ => nat.trans ?_
    rw [BitVec.toNat_and, zextImm_toNat, State.regNat]
  · refine completes_of_value rfl fun _ nat _ => nat.trans ?_
    rw [BitVec.toNat_or, zextImm_toNat, State.regNat]
  · refine completes_of_value rfl fun _ nat _ => nat.trans ?_
    rw [BitVec.toNat_xor, sextImm_toNat_eq, State.regNat, State.width]

/-- Settles O12: the condition's word is 1 or 0 by the comparison of the numbers. -/
theorem comparisonResults : Obligations.ComparisonResults := by
  intro s rst rsa rsb k
  refine ⟨?_, ?_, ?_, ?_⟩
  · exact completes_of_value rfl fun _ nat _ => nat.trans (conditionWord_lessSigned_toNat _ _)
  · exact completes_of_value rfl fun _ nat _ => nat.trans (conditionWord_lessSigned_sextImm_toNat _ k)
  · exact completes_of_value rfl fun _ nat _ => nat.trans (conditionWord_lessUnsigned_toNat _ _)
  · exact completes_of_value rfl fun _ nat _ => nat.trans (conditionWord_lessUnsigned_sextImm_toNat _ k)

/-- Settles O13: addition of words is addition modulo `2^W`. -/
theorem additionResults : Obligations.AdditionResults := by
  intro s rst rsa rsb k
  refine ⟨?_, ?_⟩
  · exact completes_of_value rfl fun _ nat _ => nat.trans (BitVec.toNat_add _ _)
  · exact completes_of_value rfl fun _ nat _ => (congrArg Nat.cast nat).trans (add_sextImm_toNat _ k)

/-- Settles O14: subtraction of words is subtraction modulo `2^W`. -/
theorem subtractionResults : Obligations.SubtractionResults := by
  intro s rst rsa rsb k
  refine ⟨?_, ?_⟩
  · exact completes_of_value rfl fun _ nat _ => (congrArg Nat.cast nat).trans (sub_toNat _ _)
  · exact completes_of_value rfl fun _ nat _ => (congrArg Nat.cast nat).trans (sub_sextImm_toNat _ k)

/-- Settles O15: sign extension keeps the signed value. -/
theorem loadRegisterResult : Obligations.LoadRegisterResult :=
  fun s _ k => completes_of_value rfl fun _ _ int => int.trans (sextImm_toInt s.params.variant k)

/-- Settles O16: the shift multiplies by 256, and the immediate fills the eight bits it leaves free. -/
theorem loadConstantResult : Obligations.LoadConstantResult :=
  fun _ _ k => completes_of_value rfl fun _ nat _ => nat.trans (shiftInByte_toNat _ k)

end Sys2Proof.Machine
end

section
/-! PROOFS. The shifts (`41_shift.md`): the value each instruction writes as a number. -/

namespace Sys2Proof.Machine

/-- Settles O17: the word written by LSR is half the operand's unsigned number, the word written by ASR half its signed
number. -/
theorem shiftResults : Obligations.ShiftResults := by
  intro s rst rsa
  refine ⟨?_, ?_⟩
  · exact completes_of_value rfl fun _ nat _ => nat.trans (shiftRightLogical_toNat _)
  · exact completes_of_value rfl fun _ _ int => int.trans (shiftRightArithmetic_toInt _)

end Sys2Proof.Machine
end

section
/-! PROOFS. Loads and stores (`42_load_store.md`): the value each load writes and the bytes each store leaves in RAM. -/

namespace Sys2Proof.Machine

section Access

variable {s : State} {rst rsa rsb : Reg}

/-- LDB from RAM answers the state with the byte, sign-extended, in its destination (R86). -/
theorem exec_ldb_inRam (inRam : s.core.dataAddress rsb + 1 ≤ s.params.variant.ramSize) :
    exec (.ldb rst rsb) s = .next
      ⟨s.params, (s.core.setReg rst (sextImm _ (s.core.mem.read (s.core.dataAddress rsb)))).advance⟩ := by
  simp only [exec, execLdb, State.perform, Core.loadByte, regionOf_ram inRam]

/-- STB to RAM answers the state with the register's low byte written there (R87). -/
theorem exec_stb_inRam (inRam : s.core.dataAddress rsb + 1 ≤ s.params.variant.ramSize) :
    exec (.stb rsa rsb) s = .next
      ⟨s.params, (s.core.setMem (s.core.mem.write (s.core.dataAddress rsb) (lowByte (s.core.reg rsa)))).advance⟩ := by
  simp only [exec, execStb, State.perform, Core.storeByte, regionOf_ram inRam]

end Access

/-- A store to RAM answers its next state: in sequence, with every register and every device as before, whatever it
wrote (R85, `10_state.md` R14). -/
theorem stores_of_setMem {s : State} {i : Instr} {mem : Memory} {P : State → Prop}
    (h : exec i s = .next ⟨s.params, (s.core.setMem mem).advance⟩)
    (hp : P ⟨s.params, (s.core.setMem mem).advance⟩) :
    ∃ t, exec i s = .next t ∧ t.pcNat = s.npcNat ∧ s.sameRegsBut t [] ∧ s.sameDevices t ∧ P t :=
  ⟨_, h, s.npcNat_eq.symm, fun _ _ => rfl, ⟨rfl, rfl, rfl, rfl, rfl⟩, hp⟩

/-- Settles O19: sign extension keeps the signed value of the byte loaded. -/
theorem loadByteResult : Obligations.LoadByteResult :=
  fun s _ _ inRam => completes_of_value (exec_ldb_inRam inRam) fun _ _ int =>
    int.trans (sextImm_toInt s.params.variant _)

/-- Settles O20: the word loaded is the big-endian number of its bytes. -/
theorem loadWordResult : Obligations.LoadWordResult :=
  fun s _ _ aligned inRam => completes_of_value (exec_ldw_inRam aligned inRam) fun _ nat _ =>
    nat.trans (s.readWord_toNat _)

/-- Settles O21: the byte written reads back as the low byte of the register, and every other byte as before. -/
theorem storeByteResult : Obligations.StoreByteResult := by
  intro s rsa rsb inRam
  refine stores_of_setMem (exec_stb_inRam inRam) ⟨?_, fun b outside => ?_⟩
  · rw [State.byteAt_mk, Core.advance_mem, Core.setMem_mem, Memory.read_write_same, lowByte_toNat, State.regNat]
  · exact s.core.mem.read_write_other _ (by omega)

/-- Settles O22: byte `i` of the word written is the register's slice of weight `256 ^ (WB - 1 - i)`, and every byte
outside the word reads as before. -/
theorem storeWordResult : Obligations.StoreWordResult := by
  intro s rsa rsb aligned inRam
  refine stores_of_setMem (exec_stw_inRam aligned inRam) ⟨fun i hi => ?_, fun b outside => ?_⟩
  · rw [State.byteAt_mk, Core.advance_mem, Core.setMem_mem, Memory.read_writeWord_at _ _ _ i hi, extract_byte_toNat,
      State.regNat]
  · exact s.core.mem.read_writeWord_other _ outside

end Sys2Proof.Machine
end

section
/-! PROOFS. The branches (`43_branch.md`): when each form is taken and to where, and what a branch answers in sequence,
at an even target and at an odd one. -/

namespace Sys2Proof.Machine

/-! ## What a branch answers, by its condition and its target (R95, R99) -/

section Answers

variable {s : State} {i : Instr} {taken : Prop} [Decidable taken] {target : Word s.params.variant}

/-- An instruction that has only moved the program counter completes as a branch to where it moved it. -/
theorem goesTo_of_jump (h : exec i s = .next ⟨s.params, s.core.jump target⟩) : s.goesTo i target.toNat :=
  ⟨_, h, rfl, fun _ _ => rfl, fun _ => rfl, ⟨rfl, rfl, rfl, rfl, rfl⟩⟩

/-- A branch whose condition does not hold goes on in sequence (R95). -/
theorem goesTo_next_of_not_taken (branches : exec i s = s.perform (·.branch taken target)) (untaken : ¬ taken) :
    s.goesTo i s.npcNat := by
  rw [State.npcNat_eq]
  refine goesTo_of_jump (branches.trans ?_)
  rw [decide_eq_false untaken]
  rfl

/-- A taken branch goes to its target if that is even (R99). -/
theorem goesTo_target_of_even (branches : exec i s = s.perform (·.branch taken target)) (isTaken : taken)
    (even : target.toNat % 2 = 0) : s.goesTo i target.toNat := by
  refine goesTo_of_jump (branches.trans ?_)
  rw [decide_eq_true isTaken, State.perform]
  rcases s.core.branch_cases true target with ⟨untaken, -⟩ | ⟨-, -, jumped⟩ | ⟨-, odd, -⟩
  · cases untaken
  · rw [jumped]
  · omega

/-- A taken branch to an odd target faults with it (R99). -/
theorem exec_misalignedTarget_of_odd (branches : exec i s = s.perform (·.branch taken target)) (isTaken : taken)
    (odd : target.toNat % 2 = 1) : exec i s = .fault (.misalignedTarget target.toNat) := by
  rw [branches, decide_eq_true isTaken, State.perform_eq_fault_iff]
  rcases s.core.branch_cases true target with ⟨untaken, -⟩ | ⟨-, even, -⟩ | ⟨-, -, faulted⟩
  · cases untaken
  · omega
  · exact faulted

end Answers

/-! ## The condition and the target of each form -/

section Forms

variable (s : State) (r rsb : Reg) (k : Byte)

/-- The condition of BEZ on the register's number (R95). -/
theorem isZero_reg : isZero (s.core.reg r) = decide (s.regNat r = 0) := by
  rw [isZero, State.regNat, decide_eq_decide, BitVec.toNat_eq, BitVec.toNat_ofNat, Nat.zero_mod]

/-- The condition of BNZ on the register's number (R95). -/
theorem not_isZero_reg : (!isZero (s.core.reg r)) = decide (s.regNat r ≠ 0) := by
  rw [isZero_reg, decide_not]

/-- BEZ to a register (R96). -/
theorem exec_bezR : exec (.bezR r rsb) s = s.perform (·.branch (s.regNat r = 0) (s.core.reg rsb)) := by
  rw [← isZero_reg]
  rfl

/-- BEZ relative to the next instruction (R97). -/
theorem exec_bezI : exec (.bezI r k) s = s.perform (·.branch (s.regNat r = 0) (s.core.relativeTarget k)) := by
  rw [← isZero_reg]
  rfl

/-- BNZ to a register (R100). -/
theorem exec_bnzR : exec (.bnzR r rsb) s = s.perform (·.branch (s.regNat r ≠ 0) (s.core.reg rsb)) := by
  rw [← not_isZero_reg]
  rfl

/-- BNZ relative to the next instruction (R101). -/
theorem exec_bnzI : exec (.bnzI r k) s = s.perform (·.branch (s.regNat r ≠ 0) (s.core.relativeTarget k)) := by
  rw [← not_isZero_reg]
  rfl

/-- The target of a relative branch in the views of a state (R98). -/
theorem State.relativeTarget_toNat :
    ((s.core.relativeTarget k).toNat : Int) = ((s.pcNat : Int) + 2 + k.toInt) % 2 ^ s.width :=
  s.core.relativeTarget_toNat k

end Forms

/-! ## The statements of `43_branch.md` -/

/-- Settles O34: in every form the condition is the one that does not hold. -/
theorem untakenBranchGoesOn : Obligations.UntakenBranchGoesOn := by
  refine fun s r rsb k => ⟨fun nonzero => ⟨?_, ?_⟩, fun zero => ⟨?_, ?_⟩⟩
  · exact goesTo_next_of_not_taken (exec_bezR s r rsb) nonzero
  · exact goesTo_next_of_not_taken (exec_bezI s r k) nonzero
  · exact goesTo_next_of_not_taken (exec_bnzR s r rsb) (not_not_intro zero)
  · exact goesTo_next_of_not_taken (exec_bnzI s r k) (not_not_intro zero)

/-- Settles O35: the target is the word in the register. -/
theorem takenRegisterBranchGoesToTheRegister : Obligations.TakenRegisterBranchGoesToTheRegister := by
  refine fun s r rsb even => ⟨fun zero => ?_, fun nonzero => ?_⟩
  · exact goesTo_target_of_even (exec_bezR s r rsb) zero even
  · exact goesTo_target_of_even (exec_bnzR s r rsb) nonzero even

/-- Settles O36: the target is the word whose number the statement writes out. -/
theorem takenRelativeBranchGoesToTheOffset : Obligations.TakenRelativeBranchGoesToTheOffset := by
  intro s r k even
  rw [← State.relativeTarget_toNat] at even ⊢
  rw [Int.toNat_natCast]
  refine ⟨fun zero => ?_, fun nonzero => ?_⟩
  · exact goesTo_target_of_even (exec_bezI s r k) zero (by omega)
  · exact goesTo_target_of_even (exec_bnzI s r k) nonzero (by omega)

/-- Settles O37: the targets are those of O35 and O36, now odd. -/
theorem takenBranchToOddTargetFaults : Obligations.TakenBranchToOddTargetFaults := by
  intro s r rsb k
  rw [← State.relativeTarget_toNat, Int.toNat_natCast]
  refine ⟨fun odd => ⟨fun zero => ?_, fun nonzero => ?_⟩, fun odd => ⟨fun zero => ?_, fun nonzero => ?_⟩⟩
  · exact exec_misalignedTarget_of_odd (exec_bezR s r rsb) zero odd
  · exact exec_misalignedTarget_of_odd (exec_bnzR s r rsb) nonzero odd
  · exact exec_misalignedTarget_of_odd (exec_bezI s r k) zero (by omega)
  · exact exec_misalignedTarget_of_odd (exec_bnzI s r k) nonzero (by omega)

end Sys2Proof.Machine
end

section
/-! PROOFS. HCF (`44_hcf.md`): what it answers, that no step follows it, and the run that it ends. -/

namespace Sys2Proof.Machine

/-! ## The instruction (R111) -/

/-- With `HCF_POLICY = halt` HCF answers the state with the halt recorded (R111). -/
theorem exec_hcf_of_halt {s : State} (halts : s.params.policy.hcf = .halt) :
    exec .hcf s = .next ⟨s.params, s.core.halt⟩ := by
  simp only [exec, execHcf, State.perform, halts]

/-- Settles O38: the halt is recorded in a field that no view of the state reads. -/
theorem hcfHaltsOrIsReserved : Obligations.HcfHaltsOrIsReserved := by
  refine fun s => ⟨fun halts => ?_, fun reserved => ?_⟩
  · exact ⟨_, exec_hcf_of_halt halts, s.core.halt_halted, rfl, fun _ _ => rfl, fun _ => rfl, rfl, ⟨rfl, rfl⟩, rfl⟩
  · exact exec_hcf_eq_fault_iff.mpr ⟨reserved, rfl⟩

/-! ## The end of a run (R111, `70_reset_and_hazards.md` R191) -/

/-- Settles O39: the mark is the first thing a step looks at. -/
theorem haltedMachineHasNoStep : Obligations.HaltedMachineHasNoStep :=
  fun _ halted => if_pos halted

/-- A machine that has a step is running (R111). -/
theorem running_of_step {s t : State} (stepped : step s = .next t) : s.core.halted = false := by
  rw [Bool.eq_false_iff]
  intro halted
  rw [haltedMachineHasNoStep s halted] at stepped
  cases stepped

/-- Where steps lead to a running machine, they began at one (R111). -/
theorem Steps.running {n : Nat} {s t : State} (steps : Steps n s t) (running : t.core.halted = false) :
    s.core.halted = false := by
  cases n with
  | zero =>
    obtain rfl : t = s := steps
    exact running
  | succ n =>
    obtain ⟨u, stepped, -⟩ := steps
    exact running_of_step stepped

section Run

variable {s t u : State}

/-- A run goes on after a step to a running machine, with one instruction more (`70_reset_and_hazards.md` R191). -/
theorem runFrom_of_step_running (fuel k : Nat) (stepped : step s = .next u) (running : u.core.halted = false) :
    runFrom (fuel + 1) k s = runFrom fuel (k + 1) u := by
  simp only [runFrom, running_of_step stepped, stepped, running, Bool.false_eq_true, if_false]

/-- A run ends at a step that halts, which is not counted (R111). -/
theorem runFrom_of_step_halted (fuel k : Nat) (stepped : step s = .next u) (halted : u.core.halted = true) :
    runFrom (fuel + 1) k s = .halted u k := by
  simp only [runFrom, running_of_step stepped, stepped, halted, Bool.false_eq_true, if_false, if_true]

/-- Steps to a running machine are a part of the run that uses as much fuel as it counts instructions
(`70_reset_and_hazards.md` R191). -/
theorem runFrom_of_steps {n : Nat} (fuel k : Nat) (steps : Steps n s t) (running : t.core.halted = false) :
    runFrom (fuel + n) k s = runFrom fuel (k + n) t := by
  induction n generalizing s k with
  | zero =>
    obtain rfl : t = s := steps
    rfl
  | succ n ih =>
    obtain ⟨u, stepped, rest⟩ := steps
    calc runFrom (fuel + n + 1) k s
      _ = runFrom (fuel + n) (k + 1) u := runFrom_of_step_running _ k stepped (rest.running running)
      _ = runFrom fuel (k + 1 + n) t := ih (k + 1) rest
      _ = runFrom fuel (k + (n + 1)) t := by rw [Nat.add_right_comm, Nat.add_assoc]

end Run

/-- Settles O57: the run follows the `n` steps, and the one left halts. -/
theorem haltedRunCountsItsInstructions : Obligations.HaltedRunCountsItsInstructions := by
  intro s t u n _ steps running stepped halted
  calc s.runFor (n + 1)
    _ = runFrom (1 + n) 0 s := by rw [State.runFor, Nat.add_comm]
    _ = runFrom 1 (0 + n) t := runFrom_of_steps 1 0 steps running
    _ = .halted u (0 + n) := runFrom_of_step_halted 0 _ stepped halted
    _ = .halted u n := by rw [Nat.zero_add]

end Sys2Proof.Machine
end

section
/-! PROOFS. Pseudo-instructions (`45_pseudo_instructions.md`): how a sequence of completing instructions completes, and
what the expansions of LDI, NOT, NEG and the conditional sets leave in their registers. -/

namespace Sys2Proof.Machine

/-! ## Instructions one after another (R113) -/

/-- Executing the list answers a next state that goes on after it, with the parameters, the devices, every byte of memory
and every register outside `ds` as before, and for which `P` holds: `State.completes` for more than one instruction. -/
def State.completesAll (s : State) (is : List Instr) (ds : List Reg) (P : State → Prop) : Prop :=
  ∃ t, execAll is s = .next t ∧ t.pcNat = (s.pcNat + 2 * is.length) % 2 ^ s.width ∧ s.sameRegsBut t ds ∧
    s.sameMemory t ∧ s.sameDevices t ∧ P t

section Frames

variable {s t u : State}

theorem State.sameRegsBut.trans {ds es : List Reg} (first : s.sameRegsBut t es) (sub : es ⊆ ds)
    (rest : t.sameRegsBut u ds) : s.sameRegsBut u ds :=
  fun r outside => (rest r outside).trans (first r fun inside => outside (sub inside))

theorem State.sameMemory.trans (first : s.sameMemory t) (rest : t.sameMemory u) : s.sameMemory u :=
  fun a => (rest a).trans (first a)

theorem State.sameDevices.trans (first : s.sameDevices t) (rest : t.sameDevices u) : s.sameDevices u := by
  obtain ⟨params, out, inChar, inInt, halted⟩ := first
  obtain ⟨params', out', inChar', inInt', halted'⟩ := rest
  exact ⟨params'.trans params, out'.trans out, inChar'.trans inChar, inInt'.trans inInt, halted'.trans halted⟩

end Frames

/-- A word is less than its modulus (`00_scope.md` §5.1). -/
theorem State.regNat_lt (s : State) (r : Reg) : s.regNat r < 2 ^ s.width := (s.core.reg r).isLt

section Sequence

variable {s : State} {i : Instr} {is : List Instr} {ds es : List Reg} {P Q : State → Prop}

theorem execAll_cons_of_next {t : State} (h : exec i s = .next t) : execAll (i :: is) s = execAll is t := by
  simp only [execAll, h]

theorem completesAll_nil (hp : P s) : s.completesAll [] ds P :=
  ⟨s, rfl, (Nat.mod_eq_of_lt s.core.pc.isLt).symm, fun _ _ => rfl, fun _ => rfl, ⟨rfl, rfl, rfl, rfl, rfl⟩, hp⟩

/-- A sequence completes if its first instruction does and, at any state that one may answer, the rest does. -/
theorem completesAll_cons (first : s.completes i es Q) (sub : es ⊆ ds)
    (rest : ∀ t : State, t.width = s.width → s.sameRegsBut t es → Q t → t.completesAll is ds P) :
    s.completesAll (i :: is) ds P := by
  obtain ⟨t, ran, pc, regs, memory, devices, value⟩ := first
  have width : t.width = s.width := congrArg (·.variant.width) devices.1
  obtain ⟨u, ran', pc', regs', memory', devices', value'⟩ := rest t width regs value
  refine ⟨u, (execAll_cons_of_next ran).trans ran', ?_, regs.trans sub regs', memory.trans memory',
    devices.trans devices', value'⟩
  rw [pc', pc, width, State.npcNat, Nat.mod_add_mod, List.length_cons, Nat.mul_succ, Nat.add_assoc,
    Nat.add_comm 2]

/-- The end of a sequence: what its last instruction leaves gives what is said of the whole. -/
theorem completesAll_last (last : s.completes i es Q) (sub : es ⊆ ds)
    (value : ∀ t : State, s.sameRegsBut t es → Q t → P t) : s.completesAll [i] ds P :=
  completesAll_cons last sub fun t _ regs hq => completesAll_nil (value t regs hq)

end Sequence

/-! ## LDI (R120) -/

/-- The bytes of a word, read as a number, are the word (`20_memory.md` R28, R29). -/
theorem bigEndian_bytesOfRegister {v : Variant} (x : Word v) : bigEndian (bytesOfRegister x) = x.toNat := by
  have bound := x.isLt
  cases v with
  | w16 | w32 =>
    simp only [Variant.width] at bound
    simp only [bigEndian, bytesOfRegister, List.foldl_cons, List.foldl_nil, BitVec.extractLsb'_toNat,
      Nat.shiftRight_eq_div_pow]
    omega

/-- Bytes shifted in below a number: it moves up by their count. -/
theorem foldl_bytes_eq (bytes : List Byte) (n : Nat) :
    bytes.foldl (fun n b => 256 * n + b.toNat) n = 256 ^ bytes.length * n + bigEndian bytes := by
  induction bytes generalizing n with
  | nil => simp [bigEndian]
  | cons b bytes ih =>
    rw [bigEndian, List.foldl_cons, List.foldl_cons, ih, ih (256 * 0 + b.toNat), List.length_cons]
    ring

/-- A byte goes before others at the weight of their count (`20_memory.md` R28). -/
theorem bigEndian_cons (b : Byte) (bytes : List Byte) :
    bigEndian (b :: bytes) = 256 ^ bytes.length * b.toNat + bigEndian bytes := by
  rw [bigEndian, List.foldl_cons, foldl_bytes_eq, Nat.mul_zero, Nat.zero_add]

/-- LDCs of one register shift their bytes in below what it held (`40_computation.md` R76, R78). -/
theorem completesAll_ldc (r : Reg) (bytes : List Byte) (s : State) :
    s.completesAll (bytes.map (.ldc r)) [r] fun t =>
      t.regNat r ≡ 256 ^ bytes.length * s.regNat r + bigEndian bytes [MOD 2 ^ s.width] := by
  induction bytes generalizing s with
  | nil => exact completesAll_nil (by simp [bigEndian, Nat.ModEq.refl])
  | cons b bytes ih =>
    refine completesAll_cons (loadConstantResult s r b) (List.Subset.refl _) fun t width _ shifted => ?_
    have shifted : t.regNat r ≡ 256 * s.regNat r + b.toNat [MOD 2 ^ s.width] := by
      rw [shifted]
      exact Nat.mod_modEq _ _
    obtain ⟨u, ran, pc, regs, memory, devices, value⟩ := ih t
    refine ⟨u, ran, pc, regs, memory, devices, ?_⟩
    rw [width] at value
    calc u.regNat r
      _ ≡ 256 ^ bytes.length * t.regNat r + bigEndian bytes [MOD 2 ^ s.width] := value
      _ ≡ 256 ^ bytes.length * (256 * s.regNat r + b.toNat) + bigEndian bytes [MOD 2 ^ s.width] :=
        (shifted.mul_left _).add_right _
      _ = 256 ^ (b :: bytes).length * s.regNat r + bigEndian (b :: bytes) := by
        rw [bigEndian_cons, List.length_cons]
        ring

/-- LDI is an LDC of each byte of its constant modulo `2^W` (R120). -/
theorem instructions_ldi (v : Variant) (r : Reg) (c : Int) :
    Pseudo.instructions v (.ldi r c) = (bytesOfRegister (BitVec.ofInt v.width c)).map (.ldc r) := by
  cases v <;> rfl

/-- As many bytes as a word has take every value a register can hold out of it (`40_computation.md` R78). -/
theorem pow_wordBytes (v : Variant) : 256 ^ v.wordBytes = 2 ^ v.width := by
  cases v <;> rfl

/-- Settles O58: the LDCs shift out what the register held and leave the number of the constant's bytes. -/
theorem loadImmediateLoadsAnyConstant : Obligations.LoadImmediateLoadsAnyConstant := by
  intro s r c
  obtain ⟨t, ran, pc, regs, memory, devices, value⟩ :=
    completesAll_ldc r (bytesOfRegister (BitVec.ofInt s.params.variant.width c)) s
  rw [List.length_map, bytesOfRegister_length] at pc
  rw [bytesOfRegister_length, pow_wordBytes, bigEndian_bytesOfRegister] at value
  rw [instructions_ldi]
  refine ⟨t, ran, ?_, regs, memory, devices, pc⟩
  have loaded : t.regNat r = (BitVec.ofInt s.params.variant.width c).toNat := by
    have width : t.width = s.width := congrArg (·.variant.width) devices.1
    refine Nat.ModEq.eq_of_lt_of_lt (value.trans ?_) (width ▸ t.regNat_lt r) (BitVec.isLt _)
    exact Nat.modEq_iff_dvd.mpr (by simp [State.width])
  rw [loaded, BitVec.toNat_ofInt, State.width]
  push_cast
  exact Int.toNat_of_nonneg (Int.emod_nonneg _ (by positivity))

/-! ## NOT and NEG (R115, R116) -/

/-- The immediate -1 is the word whose bits are all 1 (`30_encoding.md` R48). -/
theorem sextImm_neg_one (v : Variant) : sextImm v (BitVec.ofInt 8 (-1)) = BitVec.allOnes v.width := by
  cases v <;> rfl

/-- XOR with -1 inverts every bit (R115). -/
theorem completes_xorI_neg_one (s : State) (r : Reg) :
    s.completes (.xorI r (BitVec.ofInt 8 (-1))) [r] fun t => t.regNat r = 2 ^ s.width - 1 - s.regNat r := by
  refine completes_of_value rfl fun _ nat _ => nat.trans ?_
  rw [sextImm_neg_one, BitVec.xor_allOnes, BitVec.toNat_not]
  rfl

/-- The complement of a number of `W` bits is one less than its opposite (R116). -/
theorem complement_add_one_emod {n x : Nat} (bound : x < n) :
    (((n - 1 - x : Nat) : Int) + 1) % n = (0 - (x : Int)) % n := by
  have wrapped : ((n - 1 - x : Nat) : Int) + 1 = n + (0 - (x : Int)) := by omega
  rw [wrapped, Int.add_emod_left]

/-- Settles O59: NOT is the XOR with -1, and NEG adds 1 to it. -/
theorem complementPseudoOperations : Obligations.ComplementPseudoOperations := by
  intro s r
  have not_completes : s.completesAll [.xorI r (BitVec.ofInt 8 (-1))] [r] fun t =>
      t.regNat r = 2 ^ s.width - 1 - s.regNat r :=
    completesAll_last (completes_xorI_neg_one s r) (List.Subset.refl _) fun _ _ inverted => inverted
  have neg_completes : s.completesAll [.xorI r (BitVec.ofInt 8 (-1)), .addI r 1#8] [r] fun t =>
      (t.regNat r : Int) = (0 - (s.regNat r : Int)) % 2 ^ s.width := by
    refine completesAll_cons (completes_xorI_neg_one s r) (List.Subset.refl _) fun t width _ inverted => ?_
    refine completesAll_last (additionResults t r r r 1#8).2 (List.Subset.refl _) fun u _ added => ?_
    rw [added, inverted, width]
    exact_mod_cast complement_add_one_emod (s.regNat_lt r)
  obtain ⟨t, ran, -, regs, memory, -, value⟩ := not_completes
  obtain ⟨u, ran', -, regs', memory', -, value'⟩ := neg_completes
  exact ⟨⟨t, ran, value, regs, memory⟩, ⟨u, ran', value', regs', memory'⟩⟩

/-! ## The conditional sets (R126 to R129) -/

section Steps

variable (s : State) (r a b : Reg)

/-- A difference is zero exactly for equal registers (R126, R127). -/
theorem completes_subR_eq_zero_iff :
    s.completes (.subR r a b) [r] fun t => t.regNat r = 0 ↔ s.regNat a = s.regNat b := by
  refine completes_of_value rfl fun t nat _ => ?_
  rw [nat, State.regNat, State.regNat, ← BitVec.toNat_eq, ← sub_eq_zero (a := s.core.reg a), BitVec.toNat_eq]
  rfl

/-- Less than 1 as unsigned is zero: the second half of SEQ (R126). -/
theorem completes_sltuI_one :
    s.completes (.sltuI r 1#8) [r] fun t => t.regNat r = if s.regNat r = 0 then 1 else 0 := by
  refine completes_of_value rfl fun _ nat _ => nat.trans ?_
  have one : (sextImm s.params.variant 1#8).toNat = 1 := by cases s.params.variant <;> rfl
  rw [conditionWord_lessUnsigned_toNat, one, if_congr Nat.lt_one_iff rfl rfl, State.regNat]

/-- A register combined with itself by XOR is 0 (R127). -/
theorem completes_xorR_self : s.completes (.xorR r r r) [r] fun t => t.regNat r = 0 := by
  refine completes_of_value rfl fun _ nat _ => nat.trans ?_
  rw [BitVec.xor_self, BitVec.toNat_zero]

/-- LDR of 1 leaves the number 1 (R128, R129). -/
theorem completes_ldr_one : s.completes (.ldr r 1#8) [r] fun t => t.regNat r = 1 :=
  completes_of_value rfl fun _ nat _ => nat.trans (by cases s.params.variant <;> rfl)

end Steps

section Sets

variable {s : State} {r1 : Reg}

/-- SEQ: the difference is less than 1 exactly for equal operands (R126). -/
theorem completesAll_seq (r2 r3 : Reg) :
    s.completesAll [.subR r1 r2 r3, .sltuI r1 1#8] [r1] fun t =>
      t.regNat r1 = if s.regNat r2 = s.regNat r3 then 1 else 0 := by
  refine completesAll_cons (completes_subR_eq_zero_iff s r1 r2 r3) (List.Subset.refl _) fun t _ _ zero_iff => ?_
  refine completesAll_last (completes_sltuI_one t r1) (List.Subset.refl _) fun u _ set => ?_
  simp only [set, zero_iff]

/-- SNE: 0 is less than the difference exactly for different operands (R127). -/
theorem completesAll_sne (other : r1 ≠ .temporary) (r2 r3 : Reg) :
    s.completesAll [.subR r1 r2 r3, .xorR .temporary .temporary .temporary, .sltuR r1 .temporary r1]
      [r1, .temporary] fun t =>
        t.regNat r1 = (if s.regNat r2 = s.regNat r3 then 0 else 1) ∧ t.regNat .temporary = 0 := by
  refine completesAll_cons (completes_subR_eq_zero_iff s r1 r2 r3) (by simp) fun t _ _ zero_iff => ?_
  refine completesAll_cons (completes_xorR_self t .temporary) (by simp) fun u _ regs cleared => ?_
  refine completesAll_last (comparisonResults u r1 .temporary r1 0#8).2.2.1 (by simp) fun w regs' set => ⟨?_, ?_⟩
  · have kept : u.regNat r1 = t.regNat r1 := regs r1 (by simpa using other)
    rw [set, cleared, kept, if_congr Nat.pos_iff_ne_zero rfl rfl, ite_not]
    simp only [zero_iff]
  · exact (regs' .temporary (by simpa using other.symm)).trans cleared

/-- A comparison and the complement of its result, which leaves `at` 1 (R128, R129). -/
theorem completesAll_complement {compare : Instr} {C : Prop} [Decidable C] (other : r1 ≠ .temporary)
    (compares : s.completes compare [r1] fun t => t.regNat r1 = if C then 1 else 0) :
    s.completesAll [compare, .ldr .temporary 1#8, .subR r1 .temporary r1] [r1, .temporary] fun t =>
      t.regNat r1 = (if C then 0 else 1) ∧ t.regNat .temporary = 1 := by
  refine completesAll_cons compares (by simp) fun t _ _ compared => ?_
  refine completesAll_cons (completes_ldr_one t .temporary) (by simp) fun u _ regs one => ?_
  refine completesAll_last (subtractionResults u r1 .temporary r1 0#8).1 (by simp) fun w regs' difference => ⟨?_, ?_⟩
  · have kept : u.regNat r1 = t.regNat r1 := regs r1 (by simpa using other)
    have one_mod : (1 : Int) % 2 ^ u.width = 1 := by
      rw [State.width]
      cases u.params.variant <;> rfl
    rw [one, kept, compared] at difference
    split_ifs at difference ⊢
    · simpa using difference
    · simpa [one_mod] using difference
  · exact (regs' .temporary (by simpa using other.symm)).trans one

end Sets

/-- Settles O60: SEQ and SNE by their sequences, SGE and SGEU as the complements of the opposite comparisons. -/
theorem conditionalSetPseudoOperations : Obligations.ConditionalSetPseudoOperations := by
  intro s r1 r2 r3 other
  obtain ⟨slt, -, sltu, -⟩ := comparisonResults s r1 r2 r3 0#8
  refine ⟨?_, ?_, ?_, ?_⟩
  · obtain ⟨t, ran, -, regs, -, -, set⟩ := completesAll_seq r2 r3
    exact ⟨t, ran, set, regs⟩
  · obtain ⟨t, ran, -, regs, -, -, set, zero⟩ := completesAll_sne other r2 r3
    exact ⟨t, ran, set, zero, regs⟩
  · obtain ⟨t, ran, -, regs, -, -, set, one⟩ := completesAll_complement other slt
    exact ⟨t, ran, by rw [set, ← ite_not, if_congr not_lt rfl rfl], one, regs⟩
  · obtain ⟨t, ran, -, regs, -, -, set, one⟩ := completesAll_complement other sltu
    exact ⟨t, ran, by rw [set, ← ite_not, if_congr not_lt rfl rfl], one, regs⟩

end Sys2Proof.Machine
end

section
/-! PROOFS. Exceptions and the environment (`60_exceptions.md`): the faults an access can raise, the device registers,
and what LDW and STW answer at each of them. -/

namespace Sys2Proof.Machine

/-! ## The faults an instruction can raise (R163) -/

section Raised

variable {v : Variant} {m : Core v} {addr : Nat} {r : Fault}

/-- The faults of a byte load (`42_load_store.md` R90). -/
theorem Core.mem_faults_of_loadByte_error (h : m.loadByte addr = .error r) :
    r ∈ [.unmappedAccess addr .load, .deviceAccess addr] := by
  rcases m.loadByte_cases addr with ⟨-, e⟩ | ⟨-, e⟩ | ⟨-, e⟩ <;> rw [e] at h <;> cases h <;> simp

/-- The faults of a byte store (`42_load_store.md` R90). -/
theorem Core.mem_faults_of_storeByte_error {x : Byte} (h : m.storeByte addr x = .error r) :
    r ∈ [.unmappedAccess addr .store, .deviceAccess addr] := by
  rcases m.storeByte_cases addr x with ⟨-, e⟩ | ⟨-, e⟩ | ⟨-, e⟩ <;> rw [e] at h <;> cases h <;> simp

/-- The faults of a word load (`42_load_store.md` R90). -/
theorem Core.mem_faults_of_loadWord_error (h : m.loadWord addr = .error r) :
    r ∈ [.misalignedAccess addr, .unmappedAccess addr .load, .deviceAccess addr, .inputExhausted addr] := by
  rcases m.loadWord_cases addr with ⟨-, e⟩ | ⟨-, -, e⟩ | ⟨-, -, e⟩ | ⟨-, -, e⟩ <;> rw [e] at h
  · cases h; simp
  · cases h
  · rcases m.loadDevice_cases addr with ⟨_, _, -, -, e⟩ | ⟨_, _, -, -, e⟩ | ⟨-, e⟩ | ⟨-, -, e⟩ <;>
      rw [e] at h <;> cases h <;> simp
  · cases h; simp

/-- The faults of a word store (`42_load_store.md` R90). -/
theorem Core.mem_faults_of_storeWord_error {y : Word v} (h : m.storeWord addr y = .error r) :
    r ∈ [.misalignedAccess addr, .unmappedAccess addr .store, .deviceAccess addr] := by
  rcases m.storeWord_cases addr y with ⟨-, e⟩ | ⟨-, -, e⟩ | ⟨-, -, e⟩ | ⟨-, -, e⟩ <;> rw [e] at h
  · cases h; simp
  · cases h
  · rcases m.storeDevice_cases addr y with ⟨-, e⟩ | ⟨-, e⟩ | ⟨-, -, e⟩ <;> rw [e] at h <;> cases h; simp
  · cases h; simp

/-- The fault of a branch (`43_branch.md` R99). -/
theorem Core.eq_misalignedTarget_of_branch_error {taken : Bool} {target : Word v}
    (h : m.branch taken target = .error r) : r = .misalignedTarget target.toNat := by
  rcases m.branch_cases taken target with ⟨-, e⟩ | ⟨-, -, e⟩ | ⟨-, -, e⟩ <;> rw [e] at h <;> cases h
  rfl

end Raised

/-- A branch that faults raises MisalignedTarget (`43_branch.md` R99). -/
theorem eq_misalignedTarget_of_branch_fault {s : State} {i : Instr} {taken : Bool} {target : Word s.params.variant}
    {r : Fault} (branches : exec i s = s.perform (·.branch taken target)) (faulted : exec i s = .fault r) :
    r = .misalignedTarget target.toNat :=
  Core.eq_misalignedTarget_of_branch_error (State.perform_eq_fault_iff.mp (branches.symm.trans faulted))

/-- The execution of an instruction never raises MisalignedFetch (R163). -/
theorem exec_ne_misalignedFetch (i : Instr) (s : State) (a : Nat) : exec i s ≠ .fault (.misalignedFetch a) := by
  intro faulted
  cases i with
  | ldb => simpa using Core.mem_faults_of_loadByte_error (exec_ldb_eq_fault_iff.mp faulted)
  | stb => simpa using Core.mem_faults_of_storeByte_error (exec_stb_eq_fault_iff.mp faulted)
  | ldw => simpa using Core.mem_faults_of_loadWord_error (exec_ldw_eq_fault_iff.mp faulted)
  | stw => simpa using Core.mem_faults_of_storeWord_error (exec_stw_eq_fault_iff.mp faulted)
  | bezR => cases eq_misalignedTarget_of_branch_fault (exec_bezR _ _ _) faulted
  | bezI => cases eq_misalignedTarget_of_branch_fault (exec_bezI _ _ _) faulted
  | bnzR => cases eq_misalignedTarget_of_branch_fault (exec_bnzR _ _ _) faulted
  | bnzI => cases eq_misalignedTarget_of_branch_fault (exec_bnzI _ _ _) faulted
  | hcf => cases (exec_hcf_eq_fault_iff.mp faulted).2
  | _ => cases faulted

/-- A step raises MisalignedFetch only where the program counter is odd (R163, `20_memory.md` R33). -/
theorem pcNat_odd_of_step_misalignedFetch {s : State} {a : Nat} (faulted : step s = .fault (.misalignedFetch a)) :
    s.pcNat % 2 = 1 := by
  rcases step_cases s with ⟨-, e⟩ | ⟨-, r, fetched, e⟩ | ⟨-, w, i, -, -, e⟩ | ⟨-, w, _, -, -, e⟩ <;> rw [e] at faulted
  · cases faulted
  · cases faulted
    rcases s.core.fetch_cases with ⟨odd, -⟩ | ⟨-, -, answered⟩ | ⟨-, -, answered⟩
    · exact odd
    · rw [answered] at fetched; cases fetched
    · rw [answered] at fetched; cases fetched
  · exact absurd faulted (exec_ne_misalignedFetch i s a)
  · cases faulted

/-- Settles O49: the program counter stays even along the run, and MisalignedFetch needs it odd. -/
theorem misalignedFetchIsUnreachable : Obligations.MisalignedFetchIsUnreachable := by
  intro s t a even reached faulted
  have stillEven : t.pcNat % 2 = 0 :=
    reached.keeps (P := fun u => u.pcNat % 2 = 0) (programCounterStaysEven.2 _ _) even
  have odd := pcNat_odd_of_step_misalignedFetch faulted
  omega

/-! ## The device registers (R170) -/

/-- The addresses of the four device registers (R170). -/
def deviceRegisters (v : Variant) : List Nat := [v.outCharAddr, v.outIntAddr, v.inCharAddr, v.inIntAddr]

/-- The address of an output register (R170). -/
def outAddr (v : Variant) : OutPort → Nat
  | .char => v.outCharAddr
  | .int => v.outIntAddr

/-- An access that begins in the device range is a device access: RAM ends below it (`20_memory.md` R37). -/
theorem regionOf_device {v : Variant} {addr : Nat} (n : Nat) (low : v.outCharAddr ≤ addr)
    (high : addr < v.inIntAddr + v.wordBytes) : regionOf v addr n = .device := by
  have aboveRam : v.ramSize < v.outCharAddr := by cases v <;> decide
  rcases regionOf_cases v addr n with ⟨-, inRam⟩ | ⟨device, -⟩ | ⟨-, -, outside⟩
  · omega
  · exact device
  · omega

section Registers

variable {v : Variant} (m : Core v) {addr : Nat}

/-- A device register is an aligned word in the device range (R170, `20_memory.md` R37). -/
theorem deviceRegister_aligned_and_region (register : addr ∈ deviceRegisters v) :
    addr % v.wordBytes = 0 ∧ regionOf v addr v.wordBytes = .device := by
  have place : ∀ a ∈ deviceRegisters v,
      a % v.wordBytes = 0 ∧ v.outCharAddr ≤ a ∧ a < v.inIntAddr + v.wordBytes := by cases v <;> decide
  obtain ⟨aligned, low, high⟩ := place addr register
  exact ⟨aligned, regionOf_device _ low high⟩

/-- A word load at a device register is left to the device (`42_load_store.md` R90). -/
theorem Core.loadWord_deviceRegister (register : addr ∈ deviceRegisters v) : m.loadWord addr = m.loadDevice addr := by
  obtain ⟨aligned, device⟩ := deviceRegister_aligned_and_region register
  simp [Core.loadWord, aligned, device]

/-- A word store at a device register is left to the device (`42_load_store.md` R90). -/
theorem Core.storeWord_deviceRegister (register : addr ∈ deviceRegisters v) (y : Word v) :
    m.storeWord addr y = m.storeDevice addr y := by
  obtain ⟨aligned, device⟩ := deviceRegister_aligned_and_region register
  simp [Core.storeWord, aligned, device]

/-- A load from an output register faults (R175). -/
theorem Core.loadDevice_output (port : OutPort) :
    m.loadDevice (outAddr v port) = .error (.deviceAccess (outAddr v port)) := by
  have noInput : outAddr v port ≠ v.inCharAddr ∧ outAddr v port ≠ v.inIntAddr := by
    cases v <;> cases port <;> decide
  simp only [Core.loadDevice, noInput, if_false]

/-- A store to an output register appends an event there (R171, R172). -/
theorem Core.storeDevice_output (port : OutPort) (y : Word v) :
    m.storeDevice (outAddr v port) y = .ok (m.emit port y) := by
  cases port with
  | char => exact if_pos rfl
  | int =>
    have other : outAddr v .int ≠ v.outCharAddr := by cases v <;> decide
    exact (if_neg other).trans (if_pos rfl)

/-- A store to an input register faults (R175). -/
theorem Core.storeDevice_input (input : addr = v.inCharAddr ∨ addr = v.inIntAddr) (y : Word v) :
    m.storeDevice addr y = .error (.deviceAccess addr) := by
  have noOutput : addr ≠ v.outCharAddr ∧ addr ≠ v.outIntAddr := by
    rcases input with rfl | rfl <;> cases v <;> decide
  simp only [Core.storeDevice, noOutput, if_false]

/-- A load from `IN_CHAR` takes from the character input (R173). -/
theorem Core.loadDevice_inChar : m.loadDevice v.inCharAddr = m.takeChar := if_pos rfl

/-- A load from `IN_INT` takes from the integer input (R174). -/
theorem Core.loadDevice_inInt : m.loadDevice v.inIntAddr = m.takeInt := by
  have other : v.inIntAddr ≠ v.inCharAddr := by cases v <;> decide
  exact (if_neg other).trans (if_pos rfl)

end Registers

theorem outAddr_mem_deviceRegisters (v : Variant) (port : OutPort) : outAddr v port ∈ deviceRegisters v := by
  cases port <;> simp [outAddr, deviceRegisters]

theorem inCharAddr_mem_deviceRegisters (v : Variant) : v.inCharAddr ∈ deviceRegisters v := by simp [deviceRegisters]

theorem inIntAddr_mem_deviceRegisters (v : Variant) : v.inIntAddr ∈ deviceRegisters v := by simp [deviceRegisters]

/-! ## The input registers (R173, R174) -/

section Instructions

variable {s : State} {rst rsa rsb : Reg}

/-- LDW from `IN_CHAR` with an item left answers the state without it, its code in the destination (R173). -/
theorem exec_ldw_inChar {c : Byte} {left : Input Byte} (address : s.core.dataAddress rsb = s.params.variant.inCharAddr)
    (taken : s.core.inChar.take Config.charInput = some (c, left)) :
    exec (.ldw rst rsb) s = .next ⟨s.params, ((s.core.setInChar left).setReg rst (zextImm _ c)).advance⟩ := by
  simp only [exec, execLdw, State.perform, address, Core.loadWord_deviceRegister _ (inCharAddr_mem_deviceRegisters _),
    Core.loadDevice_inChar, Core.takeChar, taken]

/-- LDW from `IN_INT` with an item left answers the state without it, its residue in the destination (R174). -/
theorem exec_ldw_inInt {n : Int} {left : Input Int} (address : s.core.dataAddress rsb = s.params.variant.inIntAddr)
    (taken : s.core.inInt.take Config.intInput = some (n, left)) :
    exec (.ldw rst rsb) s = .next ⟨s.params, ((s.core.setInInt left).setReg rst (BitVec.ofInt _ n)).advance⟩ := by
  simp only [exec, execLdw, State.perform, address, Core.loadWord_deviceRegister _ (inIntAddr_mem_deviceRegisters _),
    Core.loadDevice_inInt, Core.takeInt, taken]

/-- LDW from `IN_CHAR` consumes the item the input gives, finite or oracle, and changes nothing else (R173). -/
theorem consumes_character {c : Byte} {left : Input Byte}
    (address : s.core.dataAddress rsb = s.params.variant.inCharAddr)
    (taken : s.core.inChar.take Config.charInput = some (c, left)) :
    ∃ t, exec (.ldw rst rsb) s = .next t ∧ t.regNat rst = c.toNat ∧ t.inCharNat = left.map BitVec.toNat ∧
      t.pcNat = s.npcNat ∧ s.sameRegsBut t [rst] ∧ s.sameMemory t ∧ s.sameOutput t ∧
      t.core.inInt = s.core.inInt ∧ t.params = s.params ∧ t.core.halted = s.core.halted := by
  have ran := exec_ldw_inChar (rst := rst) address taken
  refine ⟨_, ran, ?_, rfl, s.npcNat_eq.symm, onlyTheDestinationChanges _ _ _ ran, fun _ => rfl, rfl, rfl, rfl, rfl⟩
  rw [State.regNat_mk, Core.advance_reg, Core.setReg_reg_same, zextImm_toNat]

/-- An integer item modulo `2^W` as a number (R174). -/
theorem ofInt_toNat_eq_emod (v : Variant) (n : Int) : ((BitVec.ofInt v.width n).toNat : Int) = n % 2 ^ v.width := by
  rw [BitVec.toNat_ofInt, Int.toNat_of_nonneg (Int.emod_nonneg n (by positivity))]
  norm_cast

/-- LDW from `IN_INT` consumes the item the input gives, finite or oracle, and changes nothing else (R174). -/
theorem consumes_integer {n : Int} {left : Input Int}
    (address : s.core.dataAddress rsb = s.params.variant.inIntAddr)
    (taken : s.core.inInt.take Config.intInput = some (n, left)) :
    ∃ t, exec (.ldw rst rsb) s = .next t ∧ (t.regNat rst : Int) = n % 2 ^ s.width ∧ t.core.inInt = left ∧
      t.pcNat = s.npcNat ∧ s.sameRegsBut t [rst] ∧ s.sameMemory t ∧ s.sameOutput t ∧
      t.inCharNat = s.inCharNat ∧ t.params = s.params ∧ t.core.halted = s.core.halted := by
  have ran := exec_ldw_inInt (rst := rst) address taken
  refine ⟨_, ran, ?_, rfl, s.npcNat_eq.symm, onlyTheDestinationChanges _ _ _ ran, fun _ => rfl, rfl, rfl, rfl, rfl⟩
  rw [State.regNat_mk, Core.advance_reg, Core.setReg_reg_same]
  exact ofInt_toNat_eq_emod s.params.variant n

/-! ## The output registers (R171, R172, R175) -/

/-- STW to an output register answers the state with the event appended (R171, R172). -/
theorem exec_stw_output {port : OutPort} (address : s.core.dataAddress rsb = outAddr s.params.variant port) :
    exec (.stw rsa rsb) s = .next ⟨s.params, (s.core.emit port (s.core.reg rsa)).advance⟩ := by
  simp only [exec, execStw, State.perform, address, Core.storeWord_deviceRegister _ (outAddr_mem_deviceRegisters _ _),
    Core.storeDevice_output]

/-- LDW from an output register raises DeviceAccess (R175). -/
theorem exec_ldw_output {port : OutPort} (address : s.core.dataAddress rsb = outAddr s.params.variant port) :
    exec (.ldw rst rsb) s = .fault (.deviceAccess (s.core.dataAddress rsb)) := by
  rw [exec_ldw_eq_fault_iff, address, Core.loadWord_deviceRegister _ (outAddr_mem_deviceRegisters _ _),
    Core.loadDevice_output]

/-- An event appended is the register and the whole value after the output so far (R171, R172). -/
theorem State.outNat_emit_advance (s : State) (port : OutPort) (y : Word s.params.variant) :
    State.outNat ⟨s.params, (s.core.emit port y).advance⟩ = s.outNat ++ [(port, y.toNat)] :=
  List.map_append

/-- STW to an output register appends one event and changes nothing else (R171, R172). -/
theorem emits_event {port : OutPort} (address : s.core.dataAddress rsb = outAddr s.params.variant port) :
    ∃ t, exec (.stw rsa rsb) s = .next t ∧ t.outNat = s.outNat ++ [(port, s.regNat rsa)] ∧ t.pcNat = s.npcNat ∧
      s.sameRegsBut t [] ∧ s.sameMemory t ∧ s.sameInputs t ∧ t.params = s.params ∧
      t.core.halted = s.core.halted :=
  ⟨_, exec_stw_output address, s.outNat_emit_advance port _, s.npcNat_eq.symm, fun _ _ => rfl, fun _ => rfl,
    ⟨rfl, rfl⟩, rfl, rfl⟩

end Instructions

/-! ## The statements of `60_exceptions.md` about devices -/

/-- Settles O55: of the effects of an instruction, only STW's to an output register touches the output. -/
theorem outputOnlyGrowsByStores : Obligations.OutputOnlyGrowsByStores := by
  intro i s t h
  cases exec_effect h with
  | output rsa rsb port => exact .inr ⟨rsa, rsb, port, rfl, s.outNat_emit_advance port _⟩
  | _ => exact .inl rfl

/-- Settles O26: a finite input gives its first item, the oracle its next draw. -/
theorem characterInputIsConsumed : Obligations.CharacterInputIsConsumed := by
  refine fun s rst rsb address => ⟨fun c rest finite => ?_, fun n oracle => ?_⟩
  · exact consumes_character (left := .finite rest) address (by rw [finite, Input.take])
  · exact consumes_character (left := .oracle (n + 1)) address (by rw [oracle, Input.take])

/-- Settles O27: a finite input gives its first item, the oracle its next draw. -/
theorem integerInputIsConsumed : Obligations.IntegerInputIsConsumed := by
  refine fun s rst rsb address => ⟨fun n rest finite => ?_, fun n oracle => ?_⟩
  · exact consumes_integer address (by rw [finite, Input.take])
  · exact consumes_integer address (by rw [oracle, Input.take])

/-- Settles O28: from an empty finite input there is nothing to take. -/
theorem exhaustedInputFaults : Obligations.ExhaustedInputFaults := by
  intro s rst rsb
  rw [exec_ldw_eq_fault_iff, exec_ldw_eq_fault_iff]
  refine ⟨fun address empty => ?_, fun address empty => ?_⟩
  · rw [address, Core.loadWord_deviceRegister _ (inCharAddr_mem_deviceRegisters _), Core.loadDevice_inChar, Core.takeChar,
      empty, Input.take]
  · rw [address, Core.loadWord_deviceRegister _ (inIntAddr_mem_deviceRegisters _), Core.loadDevice_inInt, Core.takeInt,
      empty, Input.take]

/-- Settles O29: the two clauses are the two output registers. -/
theorem outputIsAppended : Obligations.OutputIsAppended :=
  fun _ _ _ => ⟨emits_event (port := .char), emits_event (port := .int)⟩

/-- Settles O33: a byte access in the device range is none of the accesses a device answers, and a word access at a
device register is the device's to answer. -/
theorem otherDeviceAccessFaults : Obligations.OtherDeviceAccessFaults := by
  refine fun s r rsb => ⟨fun low high => ?_, fun output => ?_, fun input => ?_⟩
  · have device := regionOf_device 1 low high
    rw [exec_ldb_eq_fault_iff, exec_stb_eq_fault_iff]
    exact ⟨by simp only [Core.loadByte, device], by simp only [Core.storeByte, device]⟩
  · rcases output with address | address
    · exact exec_ldw_output (port := .char) address
    · exact exec_ldw_output (port := .int) address
  · have register : s.core.dataAddress rsb ∈ deviceRegisters s.params.variant := by
      rcases input with address | address <;> simp [address, deviceRegisters]
    rw [exec_stw_eq_fault_iff, Core.storeWord_deviceRegister _ register]
    exact s.core.storeDevice_input input _

end Sys2Proof.Machine
end

section
/-! PROOFS. Loading an image before the first step (`70_reset_and_hazards.md` R181): what memory holds at
and outside the addresses of the lines. -/

namespace Sys2Proof.Machine

/-- A written instruction word reads back from its two bytes, the first the most significant (`20_memory.md` R27). -/
theorem Memory.wordOfBytes_writeBytes_bytesOfWord (m : Memory) (a : Nat) (w : InstrWord) :
    wordOfBytes ((m.writeBytes a (bytesOfWord w)).read a) ((m.writeBytes a (bytesOfWord w)).read (a + 1)) = w := by
  have first := m.read_writeBytes_at a (bytesOfWord w) 0 (by simp [bytesOfWord])
  have second := m.read_writeBytes_at a (bytesOfWord w) 1 (by simp [bytesOfWord])
  rw [Nat.add_zero] at first
  rw [first, second]
  exact wordOfBytes_bytesOfWord w

/-- Loading object code leaves every byte at no line's address (`70_reset_and_hazards.md` R181). -/
theorem Memory.read_load_other {code : ObjectCode} {b : Nat} (outside : ∀ l ∈ code, b < l.1 ∨ l.1 + 2 ≤ b)
    (m : Memory) : (m.load code).read b = m.read b := by
  induction code generalizing m with
  | nil => rfl
  | cons line rest ih =>
    obtain ⟨head, tail⟩ := List.forall_mem_cons.mp outside
    calc
      (m.load (line :: rest)).read b
        = (m.writeBytes line.1 (bytesOfWord line.2)).read b := ih tail _
      _ = m.read b := m.read_writeBytes_other _ head

/-- Loading object code whose lines do not overlap puts each line's word at its address: a line's own store does, and
the lines after it do not reach its two bytes (`70_reset_and_hazards.md` R181). -/
theorem Memory.wordOfBytes_load {code : ObjectCode}
    (apart : code.Pairwise (fun x y => x.1 + 2 ≤ y.1 ∨ y.1 + 2 ≤ x.1)) (m : Memory) {l : Nat × InstrWord}
    (mem : l ∈ code) :
    wordOfBytes ((m.load code).read l.1) ((m.load code).read (l.1 + 1)) = l.2 := by
  induction code generalizing m with
  | nil => cases mem
  | cons line rest ih =>
    obtain ⟨head, tail⟩ := List.pairwise_cons.mp apart
    rcases List.mem_cons.mp mem with rfl | later
    · have kept {b : Nat} (low : l.1 ≤ b) (high : b < l.1 + 2) :
          (m.load (l :: rest)).read b = (m.writeBytes l.1 (bytesOfWord l.2)).read b :=
        Memory.read_load_other (b := b) (fun y hy => by have := head y hy; omega) _
      rw [kept (Nat.le_refl _) (by omega), kept (Nat.le_succ _) (by omega)]
      exact m.wordOfBytes_writeBytes_bytesOfWord l.1 l.2
    · exact ih tail _ later

/-- An image that loads changes the memory alone, to the one with its lines stored (`70_reset_and_hazards.md` R181). -/
theorem State.eq_of_loadImage {s t : State} {code : ObjectCode} (loaded : s.loadImage code = some t) :
    t = ⟨s.params, s.core.setMem (s.core.mem.load code)⟩ := by
  unfold State.loadImage at loaded
  split at loaded
  · exact (Option.some.inj loaded).symm
  · cases loaded

/-- Settles O45: the memory after loading is the one with the lines stored, which holds each line's word at its address
and every other byte as before. -/
theorem loadedImageIsInMemory : Obligations.LoadedImageIsInMemory := by
  intro s t code loaded apart
  obtain rfl := State.eq_of_loadImage loaded
  exact ⟨fun _ mem => Memory.wordOfBytes_load apart s.core.mem mem,
    fun _ outside => Memory.read_load_other outside s.core.mem⟩

end Sys2Proof.Machine
end
